-- ==== Sys2Proof/Word.lean ====
section
/-! DEFINITION. The word types of the block: the payload byte and the four word formats of
`30_encoding.md` R70. -/

namespace Sys2Proof

/-- One payload byte, or one 8-bit register field (`00_scope.md` R5, payload width). -/
abbrev Byte := BitVec 8

/-- `CMD`, the 48-bit command word (`30_encoding.md` R71). -/
abbrev CmdWord := BitVec 48

/-- `RSP`, the 18-bit response word (`30_encoding.md` R73). -/
abbrev RspWord := BitVec 18

/-- `ROP`, the 12-bit request on a ring's port (`30_encoding.md` R77). -/
abbrev RopWord := BitVec 12

/-- `EVENT`, the two event lines as a pair (`30_encoding.md` R76). -/
abbrev EventWord := BitVec 2

end Sys2Proof
end

