-- ==== Sys2Proof/Config.lean ====
section
/-! DEFINITION. The parameters of `00_scope.md` R5. They are an argument of the model: State carries one
record of them, no step writes it, and every statement quantifies over it (log 1). The block leaves no
result of an operation undefined, so there is no opaque free value. -/

namespace Sys2Proof

/-- The parameter table of `00_scope.md` R5. -/
structure Params where
  /-- `NPORTS`: how many ports there are. OPEN. -/
  nPorts : Nat
  /-- `N_RX`: the number of slots of a receive ring. OPEN. -/
  nRx : Nat
  /-- `N_TX`: the number of slots of a transmit ring. OPEN. -/
  nTx : Nat
  /-- `CLOCK_HZ`: the clock BEGIN hands to BAUDCALC. OPEN. -/
  clockHz : Nat
  /-- `K_DOUBLE`: the divisor factor under double speed; 4 in the document (`90_conflicts.md` C8). -/
  kDouble : Nat
  /-- `K_NORMAL`: the divisor factor under normal speed; 8 in the document (`90_conflicts.md` C8). -/
  kNormal : Nat
  /-- `DIV_BITS`: the width of a representable divisor. OPEN. -/
  divBits : Nat
  /-- `QUIRK_RATE`: the rate that forces double speed off; `none` switches the exception off. OPEN. -/
  quirkRate : Option Nat
  /-- `PREFER_U2X`: the preference BEGIN hands to BAUDCALC (`92_eei_decisions.md` D17). -/
  preferU2x : Bool
  /-- `WRITE_SPLIT`: WRITE in the micro-steps of `45_transport.md` R181 (`92_eei_decisions.md` D3). -/
  writeSplit : Bool
deriving DecidableEq, Repr

namespace Params

/-- `DIV_MAX = 2^DIV_BITS - 1` (R5). -/
def divMax (c : Params) : Nat := 2 ^ c.divBits - 1

/-- The constraints of R5's table. -/
abbrev wf (c : Params) : Prop :=
  1 ≤ c.nPorts ∧ (2 ≤ c.nRx ∧ c.nRx ≤ 65536) ∧ (2 ≤ c.nTx ∧ c.nTx ≤ 65536) ∧ 1 ≤ c.clockHz ∧
    1 ≤ c.kDouble ∧ 1 ≤ c.kNormal ∧ (1 ≤ c.divBits ∧ c.divBits ≤ 16)

/-- The setting `95_test_vectors.md` uses unless a vector says otherwise: two rings of 4 slots, 16 MHz,
12 divisor bits, the document's 4 and 8, no exception, atomic WRITE, one port. DESIGN CHOICE, unsafe
(log 1): R5 leaves five of these OPEN, and only `State.reset` uses this record. -/
def vectors : Params where
  nPorts := 1
  nRx := 4
  nTx := 4
  clockHz := 16000000
  kDouble := 4
  kNormal := 8
  divBits := 12
  quirkRate := none
  preferU2x := true
  writeSplit := false

end Params
end Sys2Proof
end

