-- ==== Sys2Proof/Syntax.lean ====
section
/-! DEFINITION. The operations of the block: one constructor per row of `30_encoding.md` R74. -/

namespace Sys2Proof

/-- The two rings of a port (`00_scope.md` R12). Each ring has its own request port, so a ring operand
is named by the port it is issued on (`30_encoding.md` R77). -/
inductive RingSel where
  /-- `RX`, the receive ring: interrupt produces, mainline consumes. -/
  | rx
  /-- `TX`, the transmit ring: mainline produces, interrupt consumes. -/
  | tx
deriving DecidableEq, Repr

/-- The 17 operations, in the table's order. -/
inductive Instr where
  /-- PUSH(rb, byte, ninth), `41_ringbuffer.md` R101. -/
  | push (rb : RingSel) (ninth : Bool) (byte : Byte)
  /-- POP(rb), `41_ringbuffer.md` R102. -/
  | pop (rb : RingSel)
  /-- PEEK(rb), `41_ringbuffer.md` R103. -/
  | peek (rb : RingSel)
  /-- AVAIL(rb), `41_ringbuffer.md` R104. -/
  | avail (rb : RingSel)
  /-- CLEAR(rb), `41_ringbuffer.md` R105. -/
  | clear (rb : RingSel)
  /-- DISCARD(rb), `41_ringbuffer.md` R106. -/
  | discard (rb : RingSel)
  /-- BAUDCALC(clock, rate, prefer), `42_baudrate.md` R126. -/
  | baudcalc (clock rate : Nat) (prefer : Bool)
  /-- BEGIN rate, lineConfig, `43_portconfig.md` R140. -/
  | beginPort (rate : Nat) (line : Byte)
  /-- END, `43_portconfig.md` R141. -/
  | endPort
  /-- RXI, the receive handler, `44_handlers.md` R161. -/
  | rxi
  /-- TXI, the transmit handler, `44_handlers.md` R162. -/
  | txi
  /-- WRITE byte, ninth, `45_transport.md` R180. -/
  | write (ninth : Bool) (byte : Byte)
  /-- FLUSH, `45_transport.md` R182. -/
  | flush
  /-- READ, `45_transport.md` R183. -/
  | read
  /-- PEEKC, the port-level peek, `45_transport.md` R184. -/
  | peekc
  /-- AVAILABLE, `45_transport.md` R185. -/
  | available
  /-- OVERFLOW, `45_transport.md` R186. -/
  | overflow
deriving DecidableEq, Repr

end Sys2Proof
end

