-- ==== Sys2Proof/WellFormed.lean ====
section
/-! DEFINITION. Which terms of Instr the block's interfaces can carry. -/

namespace Sys2Proof

/-- The operand ranges: `rate` is a 32-bit number (`30_encoding.md` R72, `42_baudrate.md` R120), `clock`
is at least 1 (R120). Every other operand's type is its width. -/
def Instr.wf : Instr → Bool
  | .push _ _ _ => true
  | .pop _ => true
  | .peek _ => true
  | .avail _ => true
  | .clear _ => true
  | .discard _ => true
  | .baudcalc clock rate _ => decide (1 ≤ clock) && decide (rate < 2 ^ 32)
  | .beginPort rate _ => decide (rate < 2 ^ 32)
  | .endPort => true
  | .rxi => true
  | .txi => true
  | .write _ _ => true
  | .flush => true
  | .read => true
  | .peekc => true
  | .available => true
  | .overflow => true

end Sys2Proof
end

