-- ==== Sys2Proof/Decode.lean ====
section
/-! DEFINITION. The decoder of the block's interfaces, and the encoder, both written from the mask and
match columns of `30_encoding.md` R74. The spec fixes the encodings by decision (D20, D21, D24, D25). -/

namespace Sys2Proof

/-- What one interface of `30_encoding.md` R70 carries. BAUDCALC has no word (R74): its interface is its
three inputs. -/
inductive Request where
  /-- A word on the mainline command port. -/
  | cmd (w : CmdWord)
  /-- A word on one ring's request port. -/
  | ring (rb : RingSel) (w : RopWord)
  /-- The event lines. -/
  | event (w : EventWord)
  /-- The inputs of the pure function BAUDCALC. -/
  | func (clock rate : Nat) (prefer : Bool)
deriving DecidableEq, Repr

/-- Why a request is no operation. -/
inductive Reject where
  /-- A command word whose OP field is no operation code (R75). -/
  | reservedOp
  /-- A known OP with a one in a must-be-zero bit (R75). -/
  | mustBeZero
  /-- ROP code `0b000`, the idle value (R75). -/
  | ropIdle
  /-- ROP code `0b111`, or an operand bit where R77 says zero (R75, U14). -/
  | ropReserved
  /-- EVENT `0b00`, which starts no handler (R75). -/
  | noEvent
deriving DecidableEq, Repr

/-- `(w and mask) == match`, the row selection of R74. -/
def selects {n : Nat} (w mask val : BitVec n) : Bool := w &&& mask == val

/-- A command word that matches no row: `OP` 1 to 8 is a known code, so a must-be-zero bit is one. -/
def rejectCmd (w : CmdWord) : Reject :=
  if 1 ≤ (w.extractLsb' 44 4).toNat ∧ (w.extractLsb' 44 4).toNat ≤ 8 then .mustBeZero else .reservedOp

/-- The CMD rows of R74, with the operand assembly of R72. -/
def decodeCmd (w : CmdWord) : Except Reject Instr :=
  if selects w 0xFF0000000000#48 0x100000000000#48 then
    .ok (.beginPort (w.extractLsb' 0 32).toNat (w.extractLsb' 32 8))
  else if selects w 0xFFFFFFFFFFFF#48 0x200000000000#48 then .ok .endPort
  else if selects w 0xFFFFFFFFFE00#48 0x300000000000#48 then
    .ok (.write (w.getLsbD 8) (w.extractLsb' 0 8))
  else if selects w 0xFFFFFFFFFFFF#48 0x400000000000#48 then .ok .flush
  else if selects w 0xFFFFFFFFFFFF#48 0x500000000000#48 then .ok .read
  else if selects w 0xFFFFFFFFFFFF#48 0x600000000000#48 then .ok .peekc
  else if selects w 0xFFFFFFFFFFFF#48 0x700000000000#48 then .ok .available
  else if selects w 0xFFFFFFFFFFFF#48 0x800000000000#48 then .ok .overflow
  else .error (rejectCmd w)

/-- A ROP word that matches no row: code `0b000` is idle, everything else is reserved (log 11). -/
def rejectRop (w : RopWord) : Reject :=
  if w.extractLsb' 9 3 = 0#3 then .ropIdle else .ropReserved

/-- The ROP rows of R74, on the port of ring `rb`. -/
def decodeRop (rb : RingSel) (w : RopWord) : Except Reject Instr :=
  if selects w 0xE00#12 0x200#12 then .ok (.push rb (w.getLsbD 8) (w.extractLsb' 0 8))
  else if selects w 0xFFF#12 0x400#12 then .ok (.pop rb)
  else if selects w 0xFFF#12 0x600#12 then .ok (.peek rb)
  else if selects w 0xFFF#12 0x800#12 then .ok (.avail rb)
  else if selects w 0xFFF#12 0xA00#12 then .ok (.clear rb)
  else if selects w 0xFFF#12 0xC00#12 then .ok (.discard rb)
  else .error (rejectRop w)

/-- The EVENT rows of R74. `0b11` enables both handlers, taken one at a time in either order (R75), so a
word names a list of handlers. -/
def eventHandlers (w : EventWord) : List Instr :=
  (if selects w 0b01#2 0b01#2 then [.rxi] else []) ++ (if selects w 0b10#2 0b10#2 then [.txi] else [])

/-- The first handler an EVENT word enables; which one steps is the schedule's choice (log 13). -/
def decodeEvent (w : EventWord) : Except Reject Instr :=
  match eventHandlers w with
  | [] => .error .noEvent
  | i :: _ => .ok i

/-- The whole decoder, total on every request. -/
def decode : Request → Except Reject Instr
  | .cmd w => decodeCmd w
  | .ring rb w => decodeRop rb w
  | .event w => decodeEvent w
  | .func clock rate prefer => .ok (.baudcalc clock rate prefer)

/-- A field of a word: `v` with its bit 0 at bit `lo`. -/
def field {n m : Nat} (lo : Nat) (v : BitVec m) : BitVec n := v.setWidth n <<< lo

/-- A command with no operand, `CMD/C0`: `OP` in bits 47 to 44, zeros below (R71). -/
def opWord (op : BitVec 4) : CmdWord := field 44 op

/-- `CMD/CB`: `OP = 1`, `Z1 = 0`, `LINE` in bits 39 to 32, `RATE` in bits 31 to 0 (R71). -/
def beginWord (rate : Nat) (line : Byte) : CmdWord :=
  opWord 1#4 ||| field 32 line ||| field 0 (BitVec.ofNat 32 rate)

/-- `CMD/CW`: `OP = 3`, `NINTH` in bit 8, `BYTE` in bits 7 to 0, zeros elsewhere (R71). -/
def writeWord (ninth : Bool) (byte : Byte) : CmdWord :=
  opWord 3#4 ||| field 8 (BitVec.ofBool ninth) ||| field 0 byte

/-- The word of END (R141). -/
def endWord : CmdWord := opWord 2#4

/-- The word of FLUSH (R182). -/
def flushWord : CmdWord := opWord 4#4

/-- `ROP`: the primitive in bits 11 to 9, the ninth bit in bit 8, the byte in bits 7 to 0 (R77). -/
def ropWord (prim : BitVec 3) (ninth : Bool) (byte : Byte) : RopWord :=
  field 9 prim ||| field 8 (BitVec.ofBool ninth) ||| field 0 byte

/-- The encoder: the request that carries an operation, written from the field layouts of R71 and R77. -/
def encode : Instr → Request
  | .push rb ninth byte => .ring rb (ropWord 0b001#3 ninth byte)
  | .pop rb => .ring rb (ropWord 0b010#3 false 0#8)
  | .peek rb => .ring rb (ropWord 0b011#3 false 0#8)
  | .avail rb => .ring rb (ropWord 0b100#3 false 0#8)
  | .clear rb => .ring rb (ropWord 0b101#3 false 0#8)
  | .discard rb => .ring rb (ropWord 0b110#3 false 0#8)
  | .baudcalc clock rate prefer => .func clock rate prefer
  | .beginPort rate line => .cmd (beginWord rate line)
  | .endPort => .cmd endWord
  | .rxi => .event 0b01#2
  | .txi => .event 0b10#2
  | .write ninth byte => .cmd (writeWord ninth byte)
  | .flush => .cmd flushWord
  | .read => .cmd (opWord 5#4)
  | .peekc => .cmd (opWord 6#4)
  | .available => .cmd (opWord 7#4)
  | .overflow => .cmd (opWord 8#4)

/-- Which interface a table word of `nbits` bits (in whole bytes) stands on: CMD rows have 48 bits, ROP
rows 12, EVENT rows 2, BAUDCALC none. A ROP word is taken on `RX`'s port; BAUDCALC's inputs, for which
the table has no bits, are the least ones R120 admits (log 13). -/
def tableRequest (nbits w : Nat) : Option Request :=
  if nbits = 48 then some (.cmd (BitVec.ofNat 48 w))
  else if nbits = 16 ∨ nbits = 12 then if w < 4096 then some (.ring .rx (BitVec.ofNat 12 w)) else none
  else if nbits = 8 ∨ nbits = 2 then if w < 4 then some (.event (BitVec.ofNat 2 w)) else none
  else if nbits = 0 then some (.func 1 0 false)
  else none

/-- The operation the decoder reads from a table word. -/
def decodeTableWord (nbits w : Nat) : Option Instr :=
  match tableRequest nbits w with
  | none => none
  | some r =>
    match decode r with
    | .ok i => some i
    | .error _ => none

end Sys2Proof
end

