-- ==== Sys2Proof/Machine/State.lean ====
section
/-! DEFINITION. The state of the block (`10_state.md`), of the reference peripheral
(`60_exceptions.md` R216), the inputs of the step relation (R34), and reset (R35). Plain data. -/

namespace Sys2Proof.Machine

/-- Ring storage: (index, byte) pairs, indices strictly rising, no entry equal to what an unlisted index
reads as (`Memory.wf`). `data` is keyed by slot, `bits` by byte number. -/
abbrev Memory := List Host.Cell

/-- What an unlisted byte of ring storage reads as. DESIGN CHOICE, unsafe (log 6): R35 leaves the arrays
unspecified at reset, and no rule can read a slot before a PUSH wrote it (R32). -/
abbrev Memory.blank : Byte := 0#8

/-- A RingBuffer, `10_state.md` R21. Its size is a parameter, not a field. -/
structure Ring where
  /-- The payload bytes, by slot. -/
  data : Memory
  /-- The packed ninth-bit flags: slot i is bit i mod 8 of byte i div 8 (R24). -/
  bits : Memory
  /-- The next write position, producer-owned. -/
  head : Nat
  /-- The next read position, consumer-owned. -/
  tail : Nat
  /-- The sticky overflow flag (R25). -/
  ovf : Bool
deriving DecidableEq, Repr

/-- The peripheral register set `PR`, `10_state.md` R28: PR0 to PR15 in the table's order. -/
structure PeriphRegs where
  /-- PR0 `BRH`: the high baud-rate register. -/
  brh : Byte
  /-- PR1 `BRL`: the low baud-rate register. -/
  brl : Byte
  /-- PR2 `U2X`: use double speed. -/
  u2x : Bool
  /-- PR3 `LINE`: the line configuration bits. -/
  line : Byte
  /-- PR4 `RXEN`: receiver enable. -/
  rxen : Bool
  /-- PR5 `TXEN`: transmitter enable. -/
  txen : Bool
  /-- PR6 `RXIE`: receive-interrupt source enable. -/
  rxie : Bool
  /-- PR7 `TXIE`: transmit-interrupt source enable. -/
  txie : Bool
  /-- PR8 `TXB8`: the ninth bit of the frame to send. -/
  txb8 : Bool
  /-- PR9 `TXDATA`: the data register, write side. -/
  txdata : Byte
  /-- PR10 `TXC`: transmit complete. -/
  txc : Bool
  /-- PR11 `DRE`: transmit register empty. -/
  dre : Bool
  /-- PR12 `RXC`: receive complete. -/
  rxc : Bool
  /-- PR13 `ERR`: parity or frame error. -/
  err : Bool
  /-- PR14 `RXB8`: the received ninth bit. -/
  rxb8 : Bool
  /-- PR15 `RXDATA`: the data register, read side. -/
  rxdata : Byte
deriving DecidableEq, Repr

/-- A frame on the transmit side: ninth bit and byte (R216). -/
structure Frame where
  b8 : Bool
  byte : Byte
deriving DecidableEq, Repr

/-- A frame as RECV delivers it: ninth bit, byte, error bit (R216). -/
structure RxFrame where
  b8 : Bool
  byte : Byte
  err : Bool
deriving DecidableEq, Repr

/-- The hidden state and the traffic record of the reference peripheral (R216, R33). -/
structure RefPeriph where
  /-- The frame accepted and not yet loaded. -/
  hold : Option Frame
  /-- The frame being sent. -/
  shift : Option Frame
  /-- The frames sent, oldest first. -/
  wireOut : List Frame
  /-- The frames received, oldest first. -/
  wireIn : List RxFrame
deriving DecidableEq, Repr

/-- One port: PortState of R20 (less `PEND`, which is stored once for all ports), and the peripheral the
port is bound to. -/
structure Port where
  rx : Ring
  tx : Ring
  /-- `NINE`, the nine-bit mode flag (R26). -/
  nine : Bool
  /-- `TXING`, the transmitting flag (R27). -/
  txing : Bool
  pr : PeriphRegs
  ref : RefPeriph
deriving DecidableEq, Repr

/-- The micro-step a held WRITE takes next (`45_transport.md` R181). W0 and W1 are fused (log 9). -/
inductive WPhase where
  /-- W0 and W1: wait for room and push. Every command that has not begun stands here. -/
  | w1
  /-- W2: enable the transmit interrupt source. -/
  | w2
  /-- W3: set TXING. -/
  | w3
  /-- W4: clear TXC and respond. -/
  | w4
deriving DecidableEq, Repr

/-- A command presented and not yet completed: `PEND` of R31, with its port. -/
structure Pending where
  port : Nat
  word : CmdWord
  phase : WPhase
deriving DecidableEq, Repr

/-- One command word of the application's stream, with the command port it is presented on (R34, D39). -/
structure AppCmd where
  port : Nat
  word : CmdWord
deriving DecidableEq, Repr

/-- What PERIPH may do in one step. -/
inductive PeriphAct where
  /-- The contract of `60_exceptions.md` R215: any value into any peripheral-owned field. -/
  | drive (txc dre rxc err rxb8 : Bool) (rxdata : Byte)
  /-- The reference peripheral's LOAD (R216). -/
  | load
  /-- The reference peripheral's SENT (R216). -/
  | sent
  /-- The reference peripheral's RECV byte, b8, err (R216). -/
  | recv (byte : Byte) (b8 err : Bool)
deriving DecidableEq, Repr

/-- Whose step comes next (`00_scope.md` R8, R9). -/
inductive Move where
  /-- MAIN attempts the held command, or presents the application's next one. -/
  | main
  /-- The receive handler of port `p`. -/
  | rxi (p : Nat)
  /-- The transmit handler of port `p`. -/
  | txi (p : Nat)
  /-- The peripheral of port `p`. -/
  | periph (p : Nat) (a : PeriphAct)
  /-- RXI of port `p` and a READ on port `p` in the same instant (`20_memory.md` R61; log 14). -/
  | rxiWithRead (p : Nat)
  /-- A bench drives the request port of a ring of port `p` (`30_encoding.md` R77; log 12). -/
  | ring (p : Nat) (rb : RingSel) (w : RopWord)
  /-- A bench applies BAUDCALC (R74; log 12). -/
  | func (clock rate : Nat) (prefer : Bool)
deriving DecidableEq, Repr

/-- The conditions of `60_exceptions.md` R200 that a step reports. E4 PeerUnresponsive has no signal
(R204) and is a command that stays in `PEND`. -/
inductive Condition where
  /-- E1: a PUSH found its ring full. -/
  | bufferOverflow (rb : RingSel)
  /-- E2: RXI found the receive error bit set. -/
  | frameParityError
  /-- E3: BEGIN found no representable divisor. -/
  | baudUnsatisfiable (rate : Nat)
  /-- E5: a reserved command word. -/
  | illegalCommand (w : CmdWord)
deriving DecidableEq, Repr

/-- The abstract results of the ring primitives (`30_encoding.md` R77). -/
inductive RingResult where
  | stored
  | overflow
  | got (byte : Byte) (ninth : Bool)
  | empty
  | count (n : Nat)
  /-- CLEAR and DISCARD return nothing. -/
  | done
deriving DecidableEq, Repr

/-- The result of BAUDCALC (`42_baudrate.md` R120). -/
inductive BaudResult where
  | ok (d : Nat) (u2x : Bool)
  | error
deriving DecidableEq, Repr

/-- What the block put on its outputs in the latest step: the model's own field (log 10). -/
structure Out where
  /-- The response port (`30_encoding.md` R73, R78). -/
  rsp : Option RspWord := none
  /-- The result of a ring-port request. -/
  ring : Option RingResult := none
  /-- The result of BAUDCALC applied on its own. -/
  fn : Option BaudResult := none
  /-- The conditions reported, in order. -/
  reports : List Condition := []
deriving DecidableEq, Repr

/-- The whole machine. -/
structure State where
  /-- The parameters of R5; no step writes them. -/
  cfg : Params
  /-- One entry per port (R10). -/
  ports : List Port
  /-- The port the step acts on: the model's own field (log 16). -/
  cur : Nat
  /-- `PEND` (R31), at most one across all ports (R214; log 4). -/
  pend : Option Pending
  /-- The application's stream of command words (R34; log 4). -/
  app : List AppCmd
  /-- The order in which agents step (R9, R34; log 2). -/
  sched : List Move
  /-- The outputs of the latest step (log 10). -/
  out : Out
deriving DecidableEq, Repr

/-- The one way a step faults. -/
inductive Fault where
  /-- Raised by every operation on a port when the current port's number is not below NPORTS: no such
  port exists (`00_scope.md` R10; log 16). Safe: only a schedule or stream that names such a port gets here. -/
  | noSuchPort (p : Nat)
deriving DecidableEq, Repr

/-- The ways a step is refused. -/
inductive Refusal where
  /-- Raised by an arm of exec whose instruction has no meaning yet; no arm of this model does. Safe. -/
  | notModelled (mnemonic : String)
  /-- Raised by the ring-port move on a ROP word that no rule of the block issues
  (`30_encoding.md` R75, `93_implementation_defined.md` U14; log 11). Safe. -/
  | reservedRop (w : RopWord)
deriving DecidableEq, Repr

/-- The values R35 leaves unspecified at reset, for one port (U1 to U4). -/
structure PowerOn where
  rxData : Memory
  rxBits : Memory
  txData : Memory
  txBits : Memory
  brh : Byte
  brl : Byte
  u2x : Bool
  line : Byte
  txb8 : Bool
  txdata : Byte
  txc : Bool
  dre : Bool
  rxc : Bool
  err : Bool
  rxb8 : Bool
  rxdata : Byte
deriving DecidableEq, Repr

/-- The values this model names for them: zero everywhere, but for `DRE`, which is 1 in the reference
peripheral (R35, R216). DESIGN CHOICE, unsafe (log 6, 7, 8). -/
def PowerOn.named : PowerOn where
  rxData := []
  rxBits := []
  txData := []
  txBits := []
  brh := 0#8
  brl := 0#8
  u2x := false
  line := 0#8
  txb8 := false
  txdata := 0#8
  txc := false
  dre := true
  rxc := false
  err := false
  rxb8 := false
  rxdata := 0#8

/-- A port right after reset, `10_state.md` R35. -/
def Port.reset (u : PowerOn) : Port where
  rx := { data := u.rxData, bits := u.rxBits, head := 0, tail := 0, ovf := false }
  tx := { data := u.txData, bits := u.txBits, head := 0, tail := 0, ovf := false }
  nine := false
  txing := false
  pr := { brh := u.brh, brl := u.brl, u2x := u.u2x, line := u.line, rxen := false, txen := false,
          rxie := false, txie := false, txb8 := u.txb8, txdata := u.txdata, txc := u.txc, dre := u.dre,
          rxc := u.rxc, err := u.err, rxb8 := u.rxb8, rxdata := u.rxdata }
  ref := { hold := none, shift := none, wireOut := [], wireIn := [] }

/-- The machine right after reset under any parameters and any unspecified values of each port (R230). -/
def State.resetWith (c : Params) (u : Nat → PowerOn) : State where
  cfg := c
  ports := (List.range c.nPorts).map fun i => Port.reset (u i)
  cur := 0
  pend := none
  app := []
  sched := []
  out := {}

/-- The machine right after reset, with the values the log names (log 1, 6, 7, 8). -/
def State.reset : State := State.resetWith Params.vectors fun _ => PowerOn.named

end Sys2Proof.Machine
end

