-- ==== Sys2Proof/Machine/Flags.lean ====
section
/-! DEFINITION. What is computed from the state and not stored: empty, full and occupancy of a ring
(`10_state.md` R22, R23), the event lines (R30), the guards of the commands that hold
(`30_encoding.md` R78). -/

namespace Sys2Proof.Machine

/-- `empty(rb)`, R22. -/
def Ring.empty (r : Ring) : Bool := r.head == r.tail

/-- `full(rb)` for a ring of size `n`, R22. -/
def Ring.full (n : Nat) (r : Ring) : Bool := (r.head + 1) % n == r.tail

/-- `occ(rb)`, R23: exact in the naturals, then reduced. -/
def Ring.occ (n : Nat) (r : Ring) : Nat := (n + r.head - r.tail) % n

/-- `rx_irq = PR.RXC and PR.RXIE`, R30. -/
def PeriphRegs.rxIrq (pr : PeriphRegs) : Bool := pr.rxc && pr.rxie

/-- `tx_irq = PR.DRE and PR.TXIE`, R30. -/
def PeriphRegs.txIrq (pr : PeriphRegs) : Bool := pr.dre && pr.txie

/-- `EVENT`: bit 0 is `rx_irq`, bit 1 is `tx_irq` (`30_encoding.md` R76). -/
def PeriphRegs.eventWord (pr : PeriphRegs) : EventWord := BitVec.ofBool pr.txIrq ++ BitVec.ofBool pr.rxIrq

/-- The guard of WRITE (R78): `TX` not full. -/
def Port.writeReady (c : Params) (p : Port) : Bool := !p.tx.full c.nTx

/-- The guard of FLUSH (R78): `TXING == 0 or PR.TXC == 1`. -/
def Port.flushReady (p : Port) : Bool := !p.txing || p.pr.txc

/-- The guard of END (R78): `TX` empty. -/
def Port.endReady (p : Port) : Bool := p.tx.empty

end Sys2Proof.Machine
end

