-- ==== Sys2Proof/Machine/Operands.lean ====
section
/-! DEFINITION. Operand and result forms: the line configuration (`30_encoding.md` R72), the response word
(R73), the register split of a divisor (`43_portconfig.md` R140), the ring a name selects. -/

namespace Sys2Proof.Machine

/-- `NINTH_EN`, bit 0 of the line configuration (R72). The other seven bits are `FRAME`, opaque. -/
def ninthEnable (line : Byte) : Bool := line.getLsbD 0

/-- The STATUS field of a response (R73). -/
inductive Status where
  | ok
  | noData
  | baudError
  | illegal
deriving DecidableEq, Repr

/-- STATUS as it travels: 0 OK, 1 NO_DATA, 2 BAUD_ERROR, 3 ILLEGAL (R73). -/
def Status.code : Status → BitVec 2
  | .ok => 0#2
  | .noData => 1#2
  | .baudError => 2#2
  | .illegal => 3#2

/-- `RSP`: STATUS in bits 17 and 16, VALUE in bits 15 to 0 (R73). -/
def rspWord (st : Status) (value : BitVec 16) : RspWord := field 16 st.code ||| field 0 value

/-- `zext_16(ninth ∥ byte)`, the VALUE of READ and PEEKC with data (R73). -/
def dataValue (byte : Byte) (ninth : Bool) : BitVec 16 :=
  field 8 (BitVec.ofBool ninth) ||| field 0 byte

/-- The response of READ and PEEKC (`45_transport.md` R183, R184): the pair, or the "no data" sentinel. -/
def dataRsp : Option (Byte × Bool) → RspWord
  | none => rspWord .noData 0xFFFF#16
  | some (byte, ninth) => rspWord .ok (dataValue byte ninth)

/-- `zext_8(d div 256)`, for `PR.BRH` (R140). -/
def divHigh (d : Nat) : Byte := BitVec.ofNat 8 (d / 256)

/-- `d mod 256`, for `PR.BRL` (R140). -/
def divLow (d : Nat) : Byte := BitVec.ofNat 8 (d % 256)

/-- `N(rb)` (`00_scope.md` R7). -/
def ringSize (c : Params) : RingSel → Nat
  | .rx => c.nRx
  | .tx => c.nTx

/-- The ring a name selects. -/
def Port.ring (p : Port) : RingSel → Ring
  | .rx => p.rx
  | .tx => p.tx

/-- The port with the named ring replaced. -/
def Port.setRing (p : Port) (rb : RingSel) (r : Ring) : Port :=
  match rb with
  | .rx => { p with rx := r }
  | .tx => { p with tx := r }

end Sys2Proof.Machine
end

