-- ==== Sys2Proof/Machine/Ops.lean ====
section
/-! DEFINITION. The shared operations: ring storage (`20_memory.md`), the ring primitives
(`41_ringbuffer.md`), the register accesses with side effects (`10_state.md` R29), and how a step of an
agent ends (respond, hold, an output). The block has no exception entry and no return
(`60_exceptions.md` R205, R209, R210): a handler's step is its body, and `report` writes no state. -/

namespace Sys2Proof.Machine

/-! ### Ring storage -/

/-- One byte of ring storage. -/
def Memory.read : Memory → Nat → Byte
  | [], _ => Memory.blank
  | (a, v) :: m, k => if k = a then v else Memory.read m k

/-- Write one byte, keeping the canonical form: writing what an unlisted index reads as removes the entry. -/
def Memory.write : Memory → Nat → Byte → Memory
  | [], k, v => if v = Memory.blank then [] else [(k, v)]
  | (a, w) :: m, k, v =>
    if k < a then if v = Memory.blank then (a, w) :: m else (k, v) :: (a, w) :: m
    else if k = a then if v = Memory.blank then m else (k, v) :: m
    else (a, w) :: Memory.write m k v

/-- The canonical form: indices strictly rising, no entry equal to what an unlisted index reads as. -/
abbrev Memory.wf (m : Memory) : Prop :=
  m.Pairwise (fun x y => x.1 < y.1) ∧ ∀ c ∈ m, c.2 ≠ Memory.blank

/-- Every listed index is below `n`. -/
abbrev Memory.below (m : Memory) (n : Nat) : Prop := ∀ c ∈ m, c.1 < n

/-- A byte with bit `k` set to `b` and its other bits as they were. -/
def setBit (v : Byte) (k : Nat) (b : Bool) : Byte :=
  if b then v ||| (1#8 <<< k) else v &&& ~~~(1#8 <<< k)

/-- `BitRead(rb, i)` (`00_scope.md` R7): bit i mod 8 of byte i div 8 of `bits`. -/
def Ring.bitRead (r : Ring) (i : Nat) : Bool := (r.bits.read (i / 8)).getLsbD (i % 8)

/-- `BitWrite(rb, i, b)` (`00_scope.md` R7): that one bit, and the other seven of the byte as they were. -/
def Ring.bitWrite (r : Ring) (i : Nat) (b : Bool) : Ring :=
  { r with bits := r.bits.write (i / 8) (setBit (r.bits.read (i / 8)) (i % 8) b) }

/-- `MemRead(rb, i, 1)` and `BitRead(rb, i)` of one slot. -/
def Ring.slot (r : Ring) (i : Nat) : Byte × Bool := (r.data.read i, r.bitRead i)

/-! ### The ring primitives, on a ring of size `n` -/

/-- PUSH (R101) when it finds room: store byte and ninth bit, then publish `head`. -/
def Ring.store (n : Nat) (r : Ring) (byte : Byte) (ninth : Bool) : Ring :=
  { ({ r with data := r.data.write r.head byte } : Ring).bitWrite r.head ninth with head := (r.head + 1) % n }

/-- PUSH, `41_ringbuffer.md` R101: true is `stored`, false is `overflow`. -/
def Ring.push (n : Nat) (r : Ring) (byte : Byte) (ninth : Bool) : Bool × Ring :=
  if r.full n then (false, { r with ovf := true }) else (true, r.store n byte ninth)

/-- PEEK, `41_ringbuffer.md` R103. -/
def Ring.peek (r : Ring) : Option (Byte × Bool) :=
  if r.empty then none else some (r.slot r.tail)

/-- POP, `41_ringbuffer.md` R102. -/
def Ring.pop (n : Nat) (r : Ring) : Option (Byte × Bool) × Ring :=
  if r.empty then (none, r)
  else (some (r.slot r.tail), { r with tail := (r.tail + 1) % n, ovf := false })

/-- CLEAR, `41_ringbuffer.md` R105: `data` and `bits` keep their contents. -/
def Ring.clear (r : Ring) : Ring := { r with head := 0, tail := 0, ovf := false }

/-- DISCARD, `41_ringbuffer.md` R106: `ovf` keeps its value. -/
def Ring.discard (r : Ring) : Ring := { r with tail := r.head }

/-- PUSH and POP in the same instant, each testing the ring as it was (`20_memory.md` R61): on a full ring
outcome (c), on any other ring one of the two orders. -/
def Ring.pushWithPop (n : Nat) (r : Ring) (byte : Byte) (ninth : Bool) : Option (Byte × Bool) × Bool × Ring :=
  (r.peek, !r.full n,
    { (if r.full n then r else r.store n byte ninth) with
        tail := if r.empty then r.tail else (r.tail + 1) % n
        ovf := if r.full n then true else if r.empty then r.ovf else false })

/-- The bytes a ring holds, oldest first: slots tail, (tail+1) mod n, … (`10_state.md` R23). -/
def Ring.held (n : Nat) (r : Ring) : List (Byte × Bool) :=
  (List.range (r.occ n)).map fun k => r.slot ((r.tail + k) % n)

/-! ### The register accesses with side effects -/

/-- Read `RXDATA`: the byte, and `ERR <- 0`, `RXC <- 0` in the same step (R29 a). -/
def PeriphRegs.readRxData (pr : PeriphRegs) : Byte × PeriphRegs :=
  (pr.rxdata, { pr with err := false, rxc := false })

/-- Write `TXDATA`: the frame (`TXB8`, byte) is handed to the peripheral, `DRE <- 0` (R29 b, R216). -/
def Port.writeTxData (p : Port) (byte : Byte) : Port :=
  { p with
    pr := { p.pr with txdata := byte, dre := false }
    ref := { p.ref with hold := some { b8 := p.pr.txb8, byte := byte } } }

/-! ### How a step ends -/

/-- The port the step acts on, if it exists. -/
def State.port? (s : State) : Option Port := s.ports[s.cur]?

/-- The state with the current port and the outputs replaced. -/
def State.commit (s : State) (p : Port) (o : Out) : State := { s with ports := s.ports.set s.cur p, out := o }

/-- Run on the current port; a port number at or above NPORTS names no port (log 16). -/
def State.onPort (s : State) (f : Port → State) : Host.Outcome State Fault Refusal :=
  match s.port? with
  | some p => .next (f p)
  | none => .fault (.noSuchPort s.cur)

/-- `respond(status, value)`: the pending command is complete (`00_scope.md` R7, `30_encoding.md` R78). -/
def State.respond (s : State) (p : Port) (rsp : RspWord) (reports : List Condition := []) : State :=
  { s.commit p { rsp := some rsp, reports := reports } with pend := none }

/-- `hold`: the guard is false, the command word stays in `PEND` (`10_state.md` R31). -/
def State.hold (s : State) (w : CmdWord) (phase : WPhase) : State :=
  { s with pend := some { port := s.cur, word := w, phase := phase }, out := {} }

/-- The micro-step at which the command word `w` of the current port stands (`45_transport.md` R181). -/
def State.phaseOf (s : State) (w : CmdWord) : WPhase :=
  match s.pend with
  | some q => if q.port = s.cur ∧ q.word = w then q.phase else .w1
  | none => .w1

/-- An agent whose guard is false, or that has nothing to do, takes no step (log 3). -/
def State.noStep (s : State) : State := { s with out := {} }

end Sys2Proof.Machine
end

