-- ==== Sys2Proof/Machine/Baud.lean ====
section
/-! DEFINITION. BaudRateCalculator (`42_baudrate.md`). -/

namespace Sys2Proof.Machine

/-- `rnd(p, q) = (2*p + q) div (2*q)`, round half up (R122). -/
def rnd (p q : Nat) : Nat := (2 * p + q) / (2 * q)

/-- `k(u2x)` (R121). -/
def kFactor (c : Params) (u2x : Bool) : Nat := if u2x then c.kDouble else c.kNormal

/-- `div_for(clock, rate, u2x)`, an integer at least -1 (R121). -/
def divFor (c : Params) (clock rate : Nat) (u2x : Bool) : Int := (rnd clock (kFactor c u2x * rate) : Int) - 1

/-- The speed BAUDCALC starts from: the preference, unless the compatibility exception forces double speed
off (R123). -/
def startSpeed (c : Params) (rate : Nat) (prefer : Bool) : Bool :=
  if c.quirkRate = some rate then false else prefer

/-- The speed finally in force: one fallback, from double to normal, when the divisor is too large (R124). -/
def finalSpeed (c : Params) (clock rate : Nat) (prefer : Bool) : Bool :=
  startSpeed c rate prefer && decide (divFor c clock rate true ≤ (c.divMax : Int))

/-- BAUDCALC(clock, rate, prefer), R126. Nothing is clamped (R125). -/
def baudcalc (c : Params) (clock rate : Nat) (prefer : Bool) : BaudResult :=
  if rate = 0 then .error
  else
    let u2x := finalSpeed c clock rate prefer
    let d := divFor c clock rate u2x
    if d < 0 ∨ (c.divMax : Int) < d then .error else .ok d.toNat u2x

/-- BAUDCALC applied on its own: it reads and writes no state, its result is the step's output (log 12). -/
def execBaudcalc (clock rate : Nat) (prefer : Bool) (s : State) : Host.Outcome State Fault Refusal :=
  .next { s with out := { fn := some (baudcalc s.cfg clock rate prefer) } }

end Sys2Proof.Machine
end

