-- ==== Sys2Proof/Machine/Handlers.lean ====
section
/-! DEFINITION. The interrupt handlers (`44_handlers.md`). A handler whose event line is 0 takes no step
(R160; log 3). -/

namespace Sys2Proof.Machine

/-- The body of RXI (R161): the error bit and the ninth bit are sampled before the data register is read;
an errored byte is dropped; otherwise PUSH. Answers what was reported and the port after it. -/
def Port.receive (c : Params) (p : Port) : List Condition × Port :=
  let err := p.pr.err
  let ninth := p.pr.rxb8
  let rd := p.pr.readRxData
  if err then ([.frameParityError], { p with pr := rd.2 })
  else
    let r := p.rx.push c.nRx rd.1 ninth
    (if r.1 then [] else [.bufferOverflow .rx], { p with pr := rd.2, rx := r.2 })

/-- The body of TXI (R162): POP; on an empty ring the source is disabled; otherwise the ninth bit is
written before the data register. -/
def Port.transmit (c : Params) (p : Port) : Port :=
  match p.tx.pop c.nTx with
  | (none, _) => { p with pr := { p.pr with txie := false } }
  | (some (byte, ninth), r) => { p with tx := r, pr := { p.pr with txb8 := ninth } }.writeTxData byte

/-- RXI, R161. -/
def execRxi (s : State) : Host.Outcome State Fault Refusal :=
  s.onPort fun p =>
    if p.pr.rxIrq then s.commit (p.receive s.cfg).2 { reports := (p.receive s.cfg).1 } else s.noStep

/-- TXI, R162. -/
def execTxi (s : State) : Host.Outcome State Fault Refusal :=
  s.onPort fun p => if p.pr.txIrq then s.commit (p.transmit s.cfg) {} else s.noStep

end Sys2Proof.Machine
end

