-- ==== Sys2Proof/Machine/PortConfig.lean ====
section
/-! DEFINITION. PortConfigurator: BEGIN and END (`43_portconfig.md`). -/

namespace Sys2Proof.Machine

/-- BEGIN's first three lines: both rings cleared, `TXING <- 0` (R140). -/
def Port.restart (p : Port) : Port := { p with rx := p.rx.clear, tx := p.tx.clear, txing := false }

/-- BEGIN's register writes once BAUDCALC answered `ok(d, u2x)` (R140). -/
def Port.configure (p : Port) (d : Nat) (u2x : Bool) (line : Byte) : Port :=
  { p with
    nine := ninthEnable line
    pr := { p.pr with u2x := u2x, brh := divHigh d, brl := divLow d, line := line,
                      rxen := true, txen := true, rxie := true, txie := false } }

/-- END's writes: the four enables off, then DISCARD(RX) (R141). -/
def Port.shutDown (p : Port) : Port :=
  { p with
    pr := { p.pr with rxen := false, txen := false, rxie := false, txie := false }
    rx := p.rx.discard }

/-- BEGIN rate, lineConfig, R140. -/
def execBegin (rate : Nat) (line : Byte) (s : State) : Host.Outcome State Fault Refusal :=
  s.onPort fun p =>
    match baudcalc s.cfg s.cfg.clockHz rate s.cfg.preferU2x with
    | .ok d u2x => s.respond (p.restart.configure d u2x line) (rspWord .ok 0#16)
    | .error => s.respond p.restart (rspWord .baudError 0#16) [.baudUnsatisfiable rate]

/-- END, R141. -/
def execEnd (s : State) : Host.Outcome State Fault Refusal :=
  s.onPort fun p => if p.endReady then s.respond p.shutDown (rspWord .ok 0#16) else s.hold endWord .w1

end Sys2Proof.Machine
end

