-- ==== Sys2Proof/Machine/RingBuffer.lean ====
section
/-! DEFINITION. The ring primitives as operations on one ring's request port
(`41_ringbuffer.md` R101 to R106). -/

namespace Sys2Proof.Machine

/-- What a PUSH reports (R101). -/
def pushReports (rb : RingSel) (stored : Bool) : List Condition :=
  if stored then [] else [.bufferOverflow rb]

/-- The result of a PUSH (R77). -/
def pushResult (stored : Bool) : RingResult := if stored then .stored else .overflow

/-- The result of a POP or PEEK (R77). -/
def pairResult : Option (Byte × Bool) → RingResult
  | none => .empty
  | some (byte, ninth) => .got byte ninth

/-- PUSH, R101. -/
def execPush (rb : RingSel) (ninth : Bool) (byte : Byte) (s : State) : Host.Outcome State Fault Refusal :=
  s.onPort fun p =>
    let r := (p.ring rb).push (ringSize s.cfg rb) byte ninth
    s.commit (p.setRing rb r.2) { ring := some (pushResult r.1), reports := pushReports rb r.1 }

/-- POP, R102. -/
def execPop (rb : RingSel) (s : State) : Host.Outcome State Fault Refusal :=
  s.onPort fun p =>
    let r := (p.ring rb).pop (ringSize s.cfg rb)
    s.commit (p.setRing rb r.2) { ring := some (pairResult r.1) }

/-- PEEK, R103. -/
def execPeek (rb : RingSel) (s : State) : Host.Outcome State Fault Refusal :=
  s.onPort fun p => s.commit p { ring := some (pairResult (p.ring rb).peek) }

/-- AVAIL, R104. -/
def execAvail (rb : RingSel) (s : State) : Host.Outcome State Fault Refusal :=
  s.onPort fun p => s.commit p { ring := some (.count ((p.ring rb).occ (ringSize s.cfg rb))) }

/-- CLEAR, R105. -/
def execClear (rb : RingSel) (s : State) : Host.Outcome State Fault Refusal :=
  s.onPort fun p => s.commit (p.setRing rb (p.ring rb).clear) { ring := some .done }

/-- DISCARD, R106. -/
def execDiscard (rb : RingSel) (s : State) : Host.Outcome State Fault Refusal :=
  s.onPort fun p => s.commit (p.setRing rb (p.ring rb).discard) { ring := some .done }

end Sys2Proof.Machine
end

