-- ==== Sys2Proof/Machine/Transport.lean ====
section
/-! DEFINITION. The public transport operations (`45_transport.md`). -/

namespace Sys2Proof.Machine

/-- W1 of WRITE: PUSH on `TX`, which the guard has made succeed (R180, R181). -/
def Port.enqueue (c : Params) (p : Port) (byte : Byte) (ninth : Bool) : Port :=
  { p with tx := (p.tx.push c.nTx byte ninth).2 }

/-- W2 of WRITE: `PR.TXIE <- 1`. -/
def Port.armTx (p : Port) : Port := { p with pr := { p.pr with txie := true } }

/-- W3 of WRITE: `TXING <- 1`. -/
def Port.markTxing (p : Port) : Port := { p with txing := true }

/-- W4 of WRITE: `PR.TXC <- 0` (`10_state.md` R29 c). -/
def Port.clearTxc (p : Port) : Port := { p with pr := { p.pr with txc := false } }

/-- WRITE as one atomic step, R180. -/
def writeAtomic (ninth : Bool) (byte : Byte) (s : State) (p : Port) : State :=
  if p.writeReady s.cfg then
    s.respond ((p.enqueue s.cfg byte ninth).armTx.markTxing.clearTxc) (rspWord .ok 1#16)
  else s.hold (writeWord ninth byte) .w1

/-- WRITE in the micro-steps of R181: this step takes the one that `PEND` says is next. -/
def writeSplit (ninth : Bool) (byte : Byte) (s : State) (p : Port) : State :=
  match s.phaseOf (writeWord ninth byte) with
  | .w1 =>
    if p.writeReady s.cfg then (s.commit (p.enqueue s.cfg byte ninth) {}).hold (writeWord ninth byte) .w2
    else s.hold (writeWord ninth byte) .w1
  | .w2 => (s.commit p.armTx {}).hold (writeWord ninth byte) .w3
  | .w3 => (s.commit p.markTxing {}).hold (writeWord ninth byte) .w4
  | .w4 => s.respond p.clearTxc (rspWord .ok 1#16)

/-- WRITE byte, ninth: R180, or R181 when `WRITE_SPLIT` is set. -/
def execWrite (ninth : Bool) (byte : Byte) (s : State) : Host.Outcome State Fault Refusal :=
  s.onPort fun p => if s.cfg.writeSplit then writeSplit ninth byte s p else writeAtomic ninth byte s p

/-- FLUSH, R182. -/
def execFlush (s : State) : Host.Outcome State Fault Refusal :=
  s.onPort fun p =>
    if p.flushReady then s.respond { p with txing := false } (rspWord .ok 0#16) else s.hold flushWord .w1

/-- READ, R183. -/
def execRead (s : State) : Host.Outcome State Fault Refusal :=
  s.onPort fun p =>
    let r := p.rx.pop s.cfg.nRx
    s.respond { p with rx := r.2 } (dataRsp r.1)

/-- PEEKC, R184. -/
def execPeekc (s : State) : Host.Outcome State Fault Refusal :=
  s.onPort fun p => s.respond p (dataRsp p.rx.peek)

/-- AVAILABLE, R185. -/
def execAvailable (s : State) : Host.Outcome State Fault Refusal :=
  s.onPort fun p => s.respond p (rspWord .ok (BitVec.ofNat 16 (p.rx.occ s.cfg.nRx)))

/-- OVERFLOW, R186. -/
def execOverflow (s : State) : Host.Outcome State Fault Refusal :=
  s.onPort fun p => s.respond p (rspWord .ok ((BitVec.ofBool p.rx.ovf).setWidth 16))

end Sys2Proof.Machine
end

