-- ==== Sys2Proof/Machine/Dispatch.lean ====
section
/-! DEFINITION. One arm per operation of `30_encoding.md` R74. -/

namespace Sys2Proof.Machine

def exec (i : Instr) (s : State) : Host.Outcome State Fault Refusal :=
  match i with
  | .push rb ninth byte => Sys2Proof.Machine.execPush rb ninth byte s
  | .pop rb => Sys2Proof.Machine.execPop rb s
  | .peek rb => Sys2Proof.Machine.execPeek rb s
  | .avail rb => Sys2Proof.Machine.execAvail rb s
  | .clear rb => Sys2Proof.Machine.execClear rb s
  | .discard rb => Sys2Proof.Machine.execDiscard rb s
  | .baudcalc clock rate prefer => Sys2Proof.Machine.execBaudcalc clock rate prefer s
  | .beginPort rate line => Sys2Proof.Machine.execBegin rate line s
  | .endPort => Sys2Proof.Machine.execEnd s
  | .rxi => Sys2Proof.Machine.execRxi s
  | .txi => Sys2Proof.Machine.execTxi s
  | .write ninth byte => Sys2Proof.Machine.execWrite ninth byte s
  | .flush => Sys2Proof.Machine.execFlush s
  | .read => Sys2Proof.Machine.execRead s
  | .peekc => Sys2Proof.Machine.execPeekc s
  | .available => Sys2Proof.Machine.execAvailable s
  | .overflow => Sys2Proof.Machine.execOverflow s

end Sys2Proof.Machine
end

