-- ==== Sys2Proof/Machine/Periph.lean ====
section
/-! DEFINITION. PERIPH: the contract (`60_exceptions.md` R215) and the reference peripheral (R216). -/

namespace Sys2Proof.Machine

/-- One move of PERIPH on its port; a move of the reference peripheral that is not enabled changes nothing
(log 3, 15). -/
def Port.periph (p : Port) : PeriphAct → Port
  | .drive txc dre rxc err rxb8 rxdata =>
    { p with pr := { p.pr with txc := txc, dre := dre, rxc := rxc, err := err, rxb8 := rxb8, rxdata := rxdata } }
  | .load =>
    match p.ref.hold, p.ref.shift with
    | some f, none =>
      { p with ref := { p.ref with shift := some f, hold := none }, pr := { p.pr with dre := true } }
    | _, _ => p
  | .sent =>
    match p.ref.shift with
    | some f =>
      { p with
        ref := { p.ref with wireOut := p.ref.wireOut ++ [f], shift := none }
        pr := if p.ref.hold.isNone then { p.pr with txc := true } else p.pr }
    | none => p
  | .recv byte b8 err =>
    if p.pr.rxen then
      { p with
        pr := { p.pr with rxdata := byte, rxb8 := b8, err := err, rxc := true }
        ref := { p.ref with wireIn := p.ref.wireIn ++ [{ b8 := b8, byte := byte, err := err }] } }
    else p

/-- PERIPH's step on the current port. -/
def stepPeriph (a : PeriphAct) (s : State) : Host.Outcome State Fault Refusal :=
  s.onPort fun p => s.commit (p.periph a) {}

end Sys2Proof.Machine
end

