-- ==== Sys2Proof/Machine/Agents.lean ====
section
/-! DEFINITION. What one move of each agent does: the fetch of a command word, a handler's turn, PERIPH,
and the bench moves. -/

namespace Sys2Proof.Machine

/-- A reserved command word completes at once with ILLEGAL and changes no state (`30_encoding.md` R75). -/
def illegalCommand (w : CmdWord) (s : State) : Host.Outcome State Fault Refusal :=
  s.onPort fun p => s.respond p (rspWord .illegal 0#16) [.illegalCommand w]

/-- The command word `w` at the current port's command port: decoded and attempted. -/
def runCommand (w : CmdWord) (s : State) : Host.Outcome State Fault Refusal :=
  match decode (.cmd w) with
  | .ok i => exec i s
  | .error _ => illegalCommand w s

/-- MAIN's step: the held command is attempted again, or the application's next word is presented and
attempted (`30_encoding.md` R78; log 4). With neither, MAIN has no step. -/
def stepMain (s : State) : Host.Outcome State Fault Refusal :=
  match s.pend with
  | some q => runCommand q.word { s with cur := q.port }
  | none =>
    match s.app with
    | c :: rest => runCommand c.word { s with cur := c.port, app := rest }
    | [] => .next s.noStep

/-- A request word on the port of one ring (`30_encoding.md` R75, R77; log 11, 12). -/
def stepRing (rb : RingSel) (w : RopWord) (s : State) : Host.Outcome State Fault Refusal :=
  match decode (.ring rb w) with
  | .ok i => exec i s
  | .error .ropIdle => s.onPort fun _ => s.noStep
  | .error _ => .refused (.reservedRop w)

/-- RXI and READ in the same instant on the current port (`20_memory.md` R61; log 14). An errored frame
pushes nothing, so READ then pops as usual. -/
def rxiWithRead (s : State) (p : Port) : State :=
  if p.pr.err then
    { s.commit { p with pr := p.pr.readRxData.2, rx := (p.rx.pop s.cfg.nRx).2 }
        { rsp := some (dataRsp (p.rx.pop s.cfg.nRx).1), reports := [.frameParityError] } with pend := none }
  else
    let r := p.rx.pushWithPop s.cfg.nRx p.pr.readRxData.1 p.pr.rxb8
    { s.commit { p with pr := p.pr.readRxData.2, rx := r.2.2 }
        { rsp := some (dataRsp r.1), reports := if r.2.1 then [] else [.bufferOverflow .rx] } with pend := none }

/-- The move of R61: enabled when RXI is, nothing is held, and the application's next word is READ on this
very port. -/
def stepRxiWithRead (s : State) : Host.Outcome State Fault Refusal :=
  s.onPort fun p =>
    match s.pend, s.app with
    | none, c :: rest =>
      if c.port = s.cur ∧ decode (.cmd c.word) = .ok .read ∧ p.pr.rxIrq = true then
        rxiWithRead { s with app := rest } p
      else s.noStep
    | _, _ => s.noStep

/-- One move of the schedule (`00_scope.md` R8, R9). -/
def stepMove (m : Move) (s : State) : Host.Outcome State Fault Refusal :=
  match m with
  | .main => stepMain s
  | .rxi p => exec .rxi { s with cur := p }
  | .txi p => exec .txi { s with cur := p }
  | .periph p a => stepPeriph a { s with cur := p }
  | .rxiWithRead p => stepRxiWithRead { s with cur := p }
  | .ring p rb w => stepRing rb w { s with cur := p }
  | .func clock rate prefer => exec (.baudcalc clock rate prefer) s

/-- The next move of the schedule is taken off the list and made; with an empty list the block is idle
(log 2). -/
def stepSched (s : State) : Host.Outcome State Fault Refusal :=
  match s.sched with
  | [] => .next s
  | m :: rest => stepMove m { s with sched := rest, out := {} }

/-- Port registers with the event lines made equal to `w`, for `State.withFetchWord`: a pending bit set
with its enable, or a pending bit cleared. -/
def PeriphRegs.raise (pr : PeriphRegs) (w : EventWord) : PeriphRegs :=
  { pr with rxc := w.getLsbD 0, rxie := w.getLsbD 0 || pr.rxie,
            dre := w.getLsbD 1, txie := w.getLsbD 1 || pr.txie }

/-- Where the next step finds a request: a command word at the head of the application's stream with
nothing held, a request on a ring's port, the event lines of the current port, BAUDCALC's inputs. -/
def State.offer (s : State) : Request → State
  | .cmd w => { s with pend := none, app := { port := s.cur, word := w } :: s.app, sched := .main :: s.sched }
  | .ring rb w => { s with sched := .ring s.cur rb w :: s.sched }
  | .event w =>
    { s with
      ports := s.ports.modify s.cur fun p => { p with pr := p.pr.raise w }
      sched := match eventHandlers w with
        | .rxi :: _ => .rxi s.cur :: s.sched
        | .txi :: _ => .txi s.cur :: s.sched
        | _ => s.sched }
  | .func clock rate prefer => { s with sched := .func clock rate prefer :: s.sched }

/-- `s` with the table word stored where the step fetches its next operation. -/
def State.offerTableWord (s : State) (nbits w : Nat) : State :=
  match tableRequest nbits w with
  | some r => s.offer r
  | none => s

end Sys2Proof.Machine
end

