-- ==== Sys2Proof/Machine/Step.lean ====
section
/-! DEFINITION. The step of the machine, and where it fetches. -/

namespace Sys2Proof.Machine

/-- One atomic step of one agent (`00_scope.md` R9): the agent the schedule names. -/
def step (s : State) : Host.Outcome State Fault Refusal := stepSched s

/-- `s` with that operation stored where the step fetches its next one (log 5, 13). -/
def State.withFetchWord (s : State) (nbits w : Nat) : State := s.offerTableWord nbits w

end Sys2Proof.Machine
end

