-- ==== Sys2Proof/Safety.lean ====
section
/-! DEFINITION. What claims are stated in terms of: the shape every reachable state has, the contract with
the environment (`60_exceptions.md` R215), a run, its end (`70_reset_and_hazards.md` R247), and sequences of
ring operations. -/

namespace Sys2Proof.Machine

/-- A ring of size `n` has its indices in [0, n-1] (`10_state.md` R21) and its storage in canonical form
inside its bounds. -/
abbrev Ring.wf (n : Nat) (r : Ring) : Prop :=
  (r.head < n ∧ r.tail < n) ∧ (r.data.wf ∧ r.data.below n) ∧ (r.bits.wf ∧ r.bits.below ((n + 7) / 8))

/-- Both rings of a port. -/
abbrev Port.wf (c : Params) (p : Port) : Prop := p.rx.wf c.nRx ∧ p.tx.wf c.nTx

/-- A held command is a guarded one (`45_transport.md` R188), and only a WRITE under `WRITE_SPLIT` is past
its first micro-step (R181). -/
def Pending.legal (c : Params) (q : Pending) : Bool :=
  match decodeCmd q.word with
  | .ok (.write _ _) => c.writeSplit || q.phase == .w1
  | .ok .flush => q.phase == .w1
  | .ok .endPort => q.phase == .w1
  | _ => false

/-- The shape of every reachable state. -/
abbrev State.Inv (s : State) : Prop :=
  s.cfg.wf ∧ s.ports.length = s.cfg.nPorts ∧ s.cur < s.cfg.nPorts ∧ (∀ p ∈ s.ports, p.wf s.cfg) ∧
    ∀ q ∈ s.pend, q.port < s.cfg.nPorts ∧ q.legal s.cfg = true

/-- The micro-step after this one, if the command is not complete then (`45_transport.md` R181). -/
def WPhase.next : WPhase → Option WPhase
  | .w1 => some .w2
  | .w2 => some .w3
  | .w3 => some .w4
  | .w4 => none

/-- The moves of the four agents; the bench moves are not among them (`93_implementation_defined.md` U18). -/
def Move.inContract : Move → Bool
  | .main => true
  | .rxi _ => true
  | .txi _ => true
  | .periph _ _ => true
  | .rxiWithRead _ => true
  | .ring _ _ _ => false
  | .func _ _ _ => false

/-- Every scheduled move is an agent's. -/
abbrev State.inContract (s : State) : Prop := ∀ m ∈ s.sched, m.inContract = true

/-- Port `k` is at W2 of a split WRITE: the byte is pushed and the source not yet enabled (R181). -/
def State.atW2 (s : State) (k : Nat) : Prop := ∃ q, s.pend = some q ∧ q.port = k ∧ q.phase = .w2

/-- On every port `TX.ovf` is 0 (`10_state.md` R25) and a byte in `TX` has its interrupt source enabled
(`43_portconfig.md` R141 corner case b), but for the instant inside a split WRITE. -/
abbrev State.txArmed (s : State) : Prop :=
  ∀ k p, s.ports[k]? = some p → p.tx.ovf = false ∧ (p.tx.empty = false → p.pr.txie = true ∨ s.atW2 k)

/-- R247: no further command, nothing held, both lines of every port 0. -/
abbrev State.runOver (s : State) : Prop :=
  s.app = [] ∧ s.pend = none ∧ ∀ p ∈ s.ports, p.pr.rxIrq = false ∧ p.pr.txIrq = false

/-- `k` steps. -/
def State.run : Nat → State → Host.Outcome State Fault Refusal
  | 0, s => .next s
  | k + 1, s =>
    match step s with
    | .next s' => State.run k s'
    | .fault e => .fault e
    | .refused e => .refused e

/-- PUSH the pairs of a list one after the other. -/
def Ring.pushAll (n : Nat) (r : Ring) : List (Byte × Bool) → Ring
  | [] => r
  | (byte, ninth) :: l => Ring.pushAll n (r.push n byte ninth).2 l

/-- POP `k` times, collecting what each POP returns. -/
def Ring.popMany (n : Nat) : Nat → Ring → List (Option (Byte × Bool)) × Ring
  | 0, r => ([], r)
  | k + 1, r => ((r.pop n).1 :: (Ring.popMany n k (r.pop n).2).1, (Ring.popMany n k (r.pop n).2).2)

/-- `r'` is the ring `r` of size `n` after a PUSH that found room, said through what its slots read as:
the new pair in slot `head`, every other slot as it was, `head` advanced, `tail` and `ovf` as they were
(`41_ringbuffer.md` R101). -/
structure Ring.Appended (n : Nat) (r : Ring) (byte : Byte) (ninth : Bool) (r' : Ring) : Prop where
  head : r'.head = (r.head + 1) % n
  tail : r'.tail = r.tail
  ovf : r'.ovf = r.ovf
  stored : r'.slot r.head = (byte, ninth)
  others : ∀ i, i ≠ r.head → r'.slot i = r.slot i
  canonical : r'.data.wf ∧ r'.bits.wf

/-- The frames that have left `TX`, oldest first: sent, being sent, accepted (`60_exceptions.md` R216). -/
def RefPeriph.frames (f : RefPeriph) : List Frame := f.wireOut ++ f.shift.toList ++ f.hold.toList

/-- The reference peripheral's moves and TXI's, one round on port `k` (`60_exceptions.md` R216). -/
def drainRound (k : Nat) : List Move := [.periph k .sent, .periph k .load, .txi k]

end Sys2Proof.Machine
end

