-- ==== Sys2Proof/Certificates/Slice0/Obligations.lean ====
section
/-! DEFINITION. The statements for the provers. A statement about a ring's storage has the canonical form
of that storage (`Memory.wf`, part of `State.Inv`) as a premise where it reads after a write. -/

open Sys2Proof Sys2Proof.Machine

/-! ### Fetch, decode, encode -/

/-- `00_scope.md` R8, R9; `30_encoding.md` R78: the step is `exec` of what the scheduled agent's interface
decodes to, with the move off the schedule, the outputs cleared, the current port set, and a freshly
presented word off the application's stream. The model's choices in it: the schedule list, and that an empty
one idles (log 2); that MAIN with nothing held and no word takes an idle step (log 3); that presenting a word
and attempting it are one step (log 4, DEDUCED); and the bench moves of the ring and func clauses (log 12). -/
def Obligations.StepRunsDecodedOperation : Prop :=
  ∀ s : State,
    (s.sched = [] → step s = .next s) ∧
    ∀ (m : Move) (rest : List Move), s.sched = m :: rest →
      let s0 : State := { s with sched := rest, out := {} }
      (m = .main → ∀ q i, s.pend = some q → decode (.cmd q.word) = .ok i →
        step s = exec i { s0 with cur := q.port }) ∧
      (m = .main → ∀ c cs i, s.pend = none → s.app = c :: cs → decode (.cmd c.word) = .ok i →
        step s = exec i { s0 with cur := c.port, app := cs }) ∧
      (m = .main → s.pend = none → s.app = [] → step s = .next s0) ∧
      (∀ k, m = .rxi k → step s = exec .rxi { s0 with cur := k }) ∧
      (∀ k, m = .txi k → step s = exec .txi { s0 with cur := k }) ∧
      (∀ k rb w i, m = .ring k rb w → decode (.ring rb w) = .ok i →
        step s = exec i { s0 with cur := k }) ∧
      (∀ clock rate prefer, m = .func clock rate prefer →
        step s = exec (.baudcalc clock rate prefer) s0)

/-- The model's own fetch (log 5, 13): a table word that decodes, offered to the machine, is what the next
step runs on the current port, with the handler's event line up where it names a handler. -/
def Obligations.OfferedWordIsFetchedNext : Prop :=
  ∀ (s : State) (nbits w : Nat) (i : Instr), decodeTableWord nbits w = some i →
    ∃ s1 : State, step (s.withFetchWord nbits w) = exec i s1 ∧
      s1.cfg = s.cfg ∧ s1.cur = s.cur ∧ s1.app = s.app ∧ s1.sched = s.sched ∧
      s1.ports.length = s.ports.length ∧
      (∀ p, s1.port? = some p → (i = .rxi → p.pr.rxIrq = true) ∧ (i = .txi → p.pr.txIrq = true)) ∧
      (i ≠ .rxi → i ≠ .txi → s1.ports = s.ports)

/-- `30_encoding.md` R75. A CMD word is reserved exactly when it matches no row of R74; MAIN then answers
ILLEGAL and changes no state but its own inputs and outputs. ROP code 0 is idle, code 7 is refused. EVENT 0
starts no handler and EVENT 3 enables both. The model's choices in it: that code 0 is idle whatever the word's
other bits are (log 11; R77 has them zero), and that a ROP word is presented in a step of its own, the bench
move (log 12). -/
def Obligations.ReservedWordsHaveNoEffect : Prop :=
  (∀ w : CmdWord, (∃ e, decode (.cmd w) = .error e) ↔
    (w &&& 0xFF0000000000#48 ≠ 0x100000000000#48 ∧ w ≠ 0x200000000000#48 ∧
     w &&& 0xFFFFFFFFFE00#48 ≠ 0x300000000000#48 ∧ w ≠ 0x400000000000#48 ∧ w ≠ 0x500000000000#48 ∧
     w ≠ 0x600000000000#48 ∧ w ≠ 0x700000000000#48 ∧ w ≠ 0x800000000000#48)) ∧
  (∀ (s : State) (k : Nat) (w : CmdWord) (cs : List AppCmd) (rest : List Move) (e : Reject),
    s.sched = .main :: rest → s.pend = none → s.app = ⟨k, w⟩ :: cs → k < s.ports.length →
    decode (.cmd w) = .error e →
    step s = .next { s with
      sched := rest, cur := k, app := cs, out := { rsp := some 0x30000#18, reports := [.illegalCommand w] } }) ∧
  (∀ (s : State) (k : Nat) (rb : RingSel) (w : RopWord) (rest : List Move),
    s.sched = .ring k rb w :: rest → k < s.ports.length → w.extractLsb' 9 3 = 0#3 →
    step s = .next { s with sched := rest, cur := k, out := {} }) ∧
  (∀ (s : State) (k : Nat) (rb : RingSel) (w : RopWord) (rest : List Move),
    s.sched = .ring k rb w :: rest → w.extractLsb' 9 3 = 7#3 → step s = .refused (.reservedRop w)) ∧
  eventHandlers 0b00#2 = [] ∧ eventHandlers 0b11#2 = [.rxi, .txi]

/-- Every well-formed operation, with every operand at every value its field admits, decodes from its own
encoding (`30_encoding.md` R71, R74, R77). -/
def Obligations.DecodeInvertsEncode : Prop :=
  ∀ i : Instr, i.wf = true → decode (encode i) = .ok i

/-- Each command word and each ring request has one meaning: a word that decodes is the encoding of what it
decodes to, which is well-formed (R71, R74, R77). -/
def Obligations.EncodeInvertsDecode : Prop :=
  (∀ (w : CmdWord) (i : Instr), decode (.cmd w) = .ok i → encode i = .cmd w ∧ i.wf = true) ∧
  (∀ (rb : RingSel) (w : RopWord) (i : Instr),
    decode (.ring rb w) = .ok i → encode i = .ring rb w ∧ i.wf = true)

/-- Words written out from R71, R74 and R77, as `95_test_vectors.md` section 2.2 lists them, one per format
and operation family. -/
def Obligations.ListedWordsDecode : Prop :=
  decode (.cmd 0x1006000012C0#48) = .ok (.beginPort 4800 0x06#8) ∧
  decode (.cmd 0x10FFFFFFFFFF#48) = .ok (.beginPort 4294967295 0xFF#8) ∧
  decode (.cmd 0x200000000000#48) = .ok .endPort ∧
  decode (.cmd 0x300000000141#48) = .ok (.write true 0x41#8) ∧
  decode (.cmd 0x400000000000#48) = .ok .flush ∧
  decode (.cmd 0x500000000000#48) = .ok .read ∧
  decode (.cmd 0x600000000000#48) = .ok .peekc ∧
  decode (.cmd 0x700000000000#48) = .ok .available ∧
  decode (.cmd 0x800000000000#48) = .ok .overflow ∧
  decode (.cmd 0x110600002580#48) = .error .mustBeZero ∧
  decode (.cmd 0x900000000000#48) = .error .reservedOp ∧
  decode (.ring .rx 0x341#12) = .ok (.push .rx true 0x41#8) ∧
  decode (.ring .tx 0x400#12) = .ok (.pop .tx) ∧
  decode (.event 0b10#2) = .ok .txi

/-! ### The ring primitives -/

/-- `41_ringbuffer.md` R101. -/
def Obligations.PushStoresOrOverflows : Prop :=
  (∀ (rb : RingSel) (w : RopWord), w &&& 0xE00#12 = 0x200#12 →
    decode (.ring rb w) = .ok (.push rb (w.getLsbD 8) (w.extractLsb' 0 8))) ∧
  ∀ (s : State) (p : Port) (rb : RingSel) (ninth : Bool) (byte : Byte), s.port? = some p →
    ((((p.ring rb).head + 1) % ringSize s.cfg rb = (p.ring rb).tail) →
      exec (.push rb ninth byte) s = .next { s with
        ports := s.ports.set s.cur (p.setRing rb { p.ring rb with ovf := true })
        out := { ring := some .overflow, reports := [.bufferOverflow rb] } }) ∧
    ((((p.ring rb).head + 1) % ringSize s.cfg rb ≠ (p.ring rb).tail) →
      (p.ring rb).data.wf → (p.ring rb).bits.wf →
      ∃ r', (p.ring rb).Appended (ringSize s.cfg rb) byte ninth r' ∧
        exec (.push rb ninth byte) s = .next { s with
          ports := s.ports.set s.cur (p.setRing rb r')
          out := { ring := some .stored } })

/-- `41_ringbuffer.md` R102: an empty POP changes no state; a successful one returns the slot at `tail`,
advances `tail` and clears `ovf`, whatever it was. -/
def Obligations.PopReturnsOldestAndClearsOverflow : Prop :=
  (∀ rb : RingSel, decode (.ring rb 0x400#12) = .ok (.pop rb)) ∧
  ∀ (s : State) (p : Port) (rb : RingSel), s.port? = some p →
    ((p.ring rb).head = (p.ring rb).tail →
      exec (.pop rb) s = .next { s with out := { ring := some .empty } }) ∧
    ((p.ring rb).head ≠ (p.ring rb).tail →
      exec (.pop rb) s = .next { s with
        ports := s.ports.set s.cur (p.setRing rb { p.ring rb with
          tail := ((p.ring rb).tail + 1) % ringSize s.cfg rb, ovf := false })
        out := { ring := some (.got ((p.ring rb).data.read (p.ring rb).tail)
          ((p.ring rb).bitRead (p.ring rb).tail)) } })

/-- `41_ringbuffer.md` R103, R104: PEEK returns what POP would return and AVAIL the occupancy; neither
writes any state. -/
def Obligations.PeekAndAvailOnlyAnswer : Prop :=
  (∀ rb : RingSel, decode (.ring rb 0x600#12) = .ok (.peek rb) ∧ decode (.ring rb 0x800#12) = .ok (.avail rb)) ∧
  ∀ (s : State) (p : Port) (rb : RingSel), s.port? = some p →
    ((p.ring rb).head = (p.ring rb).tail →
      exec (.peek rb) s = .next { s with out := { ring := some .empty } }) ∧
    ((p.ring rb).head ≠ (p.ring rb).tail →
      exec (.peek rb) s = .next { s with out := { ring := some (.got ((p.ring rb).data.read (p.ring rb).tail)
        ((p.ring rb).bitRead (p.ring rb).tail)) } }) ∧
    exec (.avail rb) s = .next { s with out := { ring := some (.count
      ((ringSize s.cfg rb + (p.ring rb).head - (p.ring rb).tail) % ringSize s.cfg rb)) } } ∧
    ∃ t u, exec (.peek rb) s = .next t ∧ exec (.pop rb) t = .next u ∧ u.out.ring = t.out.ring

/-- `41_ringbuffer.md` R105, R106: CLEAR zeroes both indices and the flag, DISCARD moves `tail` to `head`;
neither touches `data` or `bits`, and DISCARD leaves the flag. -/
def Obligations.ClearAndDiscardEmptyTheRing : Prop :=
  (∀ rb : RingSel, decode (.ring rb 0xA00#12) = .ok (.clear rb) ∧ decode (.ring rb 0xC00#12) = .ok (.discard rb)) ∧
  ∀ (s : State) (p : Port) (rb : RingSel), s.port? = some p →
    exec (.clear rb) s = .next { s with
      ports := s.ports.set s.cur (p.setRing rb { p.ring rb with head := 0, tail := 0, ovf := false })
      out := { ring := some .done } } ∧
    exec (.discard rb) s = .next { s with
      ports := s.ports.set s.cur (p.setRing rb { p.ring rb with tail := (p.ring rb).head })
      out := { ring := some .done } }

/-- `41_ringbuffer.md` R107, `10_state.md` R23: a ring is a bounded queue. PUSH appends to the bytes held,
or changes none of them when N-1 are held; POP takes the oldest; AVAIL counts them; DISCARD and CLEAR
leave none. -/
def Obligations.RingPrimitivesRefineAQueue : Prop :=
  ∀ (s : State) (p : Port) (rb : RingSel) (ninth : Bool) (byte : Byte),
    s.port? = some p → 2 ≤ ringSize s.cfg rb → (p.ring rb).wf (ringSize s.cfg rb) →
    (∃ t q, exec (.push rb ninth byte) s = .next t ∧ t.port? = some q ∧
      if ((p.ring rb).held (ringSize s.cfg rb)).length = ringSize s.cfg rb - 1 then
        (q.ring rb).held (ringSize s.cfg rb) = (p.ring rb).held (ringSize s.cfg rb) ∧
          t.out.ring = some .overflow ∧ (q.ring rb).ovf = true
      else
        (q.ring rb).held (ringSize s.cfg rb) = (p.ring rb).held (ringSize s.cfg rb) ++ [(byte, ninth)] ∧
          t.out.ring = some .stored ∧ (q.ring rb).ovf = (p.ring rb).ovf) ∧
    (∃ t q, exec (.pop rb) s = .next t ∧ t.port? = some q ∧
      match (p.ring rb).held (ringSize s.cfg rb) with
      | [] => (q.ring rb).held (ringSize s.cfg rb) = [] ∧ t.out.ring = some .empty ∧
          (q.ring rb).ovf = (p.ring rb).ovf
      | (b, x) :: l => (q.ring rb).held (ringSize s.cfg rb) = l ∧ t.out.ring = some (.got b x) ∧
          (q.ring rb).ovf = false) ∧
    (∃ t, exec (.avail rb) s = .next t ∧
      t.out.ring = some (.count ((p.ring rb).held (ringSize s.cfg rb)).length)) ∧
    (∃ t q, exec (.discard rb) s = .next t ∧ t.port? = some q ∧ (q.ring rb).held (ringSize s.cfg rb) = []) ∧
    (∃ t q, exec (.clear rb) s = .next t ∧ t.port? = some q ∧ (q.ring rb).held (ringSize s.cfg rb) = [])

/-- `41_ringbuffer.md` R107 (a), (d): pushing any list that fits and then popping as many times as bytes
are held returns the bytes held before, then the list, each byte with its own ninth bit. -/
def Obligations.PushedSequencesPopInOrder : Prop :=
  ∀ (n : Nat) (r : Ring) (l : List (Byte × Bool)), 2 ≤ n → r.wf n → r.occ n + l.length ≤ n - 1 →
    ((r.pushAll n l).popMany n (r.occ n + l.length)).1 = (r.held n ++ l).map some ∧
    ((r.pushAll n l).popMany n (r.occ n + l.length)).2.empty = true

/-- `10_state.md` R22, R23: on a ring of at least two slots `occ` is in [0, N-1], is 0 exactly on an empty
ring and N-1 exactly on a full one, no ring is both, and the bytes held are the slots from `tail` on. -/
def Obligations.OccupancyCountsBetweenEmptyAndFull : Prop :=
  ∀ (n : Nat) (r : Ring), 2 ≤ n → r.head < n → r.tail < n →
    (r.occ n = (n + r.head - r.tail) % n ∧ r.occ n ≤ n - 1) ∧
    ((r.held n).length = r.occ n ∧ ∀ k, k < r.occ n → (r.held n)[k]? = some (r.slot ((r.tail + k) % n))) ∧
    (r.empty = true ↔ r.head = r.tail) ∧ (r.occ n = 0 ↔ r.empty = true) ∧
    (r.full n = true ↔ (r.head + 1) % n = r.tail) ∧ (r.occ n = n - 1 ↔ r.full n = true) ∧
    ¬ (r.empty = true ∧ r.full n = true)

/-- Two canonical ring storages that read alike everywhere are the same list (the model's memory form). -/
def Obligations.CanonicalStorageIsDeterminedByReads : Prop :=
  ∀ m m' : Memory, m.wf → m'.wf → (∀ i, m.read i = m'.read i) → m = m'

/-! ### BaudRateCalculator -/

/-- `42_baudrate.md` R126, with R121 to R125: BAUDCALC writes no state and answers as the pseudocode says. -/
def Obligations.BaudcalcFollowsThePseudocode : Prop :=
  ∀ (s : State) (clock rate : Nat) (prefer : Bool),
    let k : Bool → Nat := fun u => if u then s.cfg.kDouble else s.cfg.kNormal
    let d : Bool → Int := fun u => ((2 * clock + k u * rate) / (2 * (k u * rate)) : Nat) - 1
    let divMax : Int := 2 ^ s.cfg.divBits - 1
    let u0 : Bool := if s.cfg.quirkRate = some rate then false else prefer
    let u : Bool := if u0 = true ∧ divMax < d u0 then false else u0
    let result : BaudResult :=
      if rate = 0 then .error else if d u < 0 ∨ divMax < d u then .error else .ok (d u).toNat u
    exec (.baudcalc clock rate prefer) s = .next { s with out := { fn := some result } }

/-- `42_baudrate.md` R122: the rounding is (2p + q) div 2q, which equals floor(p/q + 1/2) exactly. -/
def Obligations.RoundingIsHalfUp : Prop :=
  ∀ p q : Nat, 1 ≤ q → rnd p q = (2 * p + q) / (2 * q) ∧ (rnd p q : Int) = ⌊(p : ℚ) / q + 1 / 2⌋

/-- `42_baudrate.md` R125: an `ok` result is never clamped. It is in [0, DIV_MAX], it is the rounded
quotient less one at the speed it names, and the rate was not 0. -/
def Obligations.AcceptedDivisorIsExact : Prop :=
  ∀ (c : Params) (clock rate : Nat) (prefer : Bool) (d : Nat) (u2x : Bool),
    baudcalc c clock rate prefer = .ok d u2x →
    rate ≠ 0 ∧ d ≤ c.divMax ∧ d + 1 = rnd clock ((if u2x then c.kDouble else c.kNormal) * rate) ∧
      (u2x = true → prefer = true ∧ c.quirkRate ≠ some rate)

/-- `42_baudrate.md` R124: with K_NORMAL >= K_DOUBLE the normal-speed divisor is never the larger one; a
double-speed divisor that does not fit falls back to normal speed when that one fits, and is an error when
it does not; there is no fallback from normal speed. -/
def Obligations.FallbackGoesFromDoubleToNormal : Prop :=
  ∀ (c : Params) (clock rate : Nat), c.wf → 1 ≤ rate →
    (c.kDouble ≤ c.kNormal → divFor c clock rate false ≤ divFor c clock rate true) ∧
    (c.quirkRate ≠ some rate → (c.divMax : Int) < divFor c clock rate true →
      baudcalc c clock rate true = baudcalc c clock rate false) ∧
    (∀ prefer, c.quirkRate = some rate → baudcalc c clock rate prefer = baudcalc c clock rate false) ∧
    ((divFor c clock rate false < 0 ∨ (c.divMax : Int) < divFor c clock rate false) →
      baudcalc c clock rate false = .error) ∧
    (0 ≤ divFor c clock rate false → divFor c clock rate false ≤ (c.divMax : Int) →
      baudcalc c clock rate false = .ok (divFor c clock rate false).toNat false)

/-! ### PortConfigurator -/

/-- `43_portconfig.md` R140. -/
def Obligations.BeginResetsThenConfigures : Prop :=
  (∀ w : CmdWord, w &&& 0xFF0000000000#48 = 0x100000000000#48 →
    decode (.cmd w) = .ok (.beginPort (w.extractLsb' 0 32).toNat (w.extractLsb' 32 8))) ∧
  ∀ (s : State) (p : Port) (rate : Nat) (line : Byte), s.port? = some p →
    (baudcalc s.cfg s.cfg.clockHz rate s.cfg.preferU2x = .error →
      exec (.beginPort rate line) s = .next { s with
        ports := s.ports.set s.cur { p with
          rx := { p.rx with head := 0, tail := 0, ovf := false }
          tx := { p.tx with head := 0, tail := 0, ovf := false }
          txing := false }
        pend := none
        out := { rsp := some 0x20000#18, reports := [.baudUnsatisfiable rate] } }) ∧
    (∀ d u2x, baudcalc s.cfg s.cfg.clockHz rate s.cfg.preferU2x = .ok d u2x →
      exec (.beginPort rate line) s = .next { s with
        ports := s.ports.set s.cur { p with
          rx := { p.rx with head := 0, tail := 0, ovf := false }
          tx := { p.tx with head := 0, tail := 0, ovf := false }
          txing := false
          nine := line.getLsbD 0
          pr := { p.pr with
            u2x := u2x, brh := BitVec.ofNat 8 (d / 256), brl := BitVec.ofNat 8 (d % 256), line := line,
            rxen := true, txen := true, rxie := true, txie := false } }
        pend := none
        out := { rsp := some 0x00000#18 } })

/-- `42_baudrate.md` R128, `20_memory.md` R51: after a successful BEGIN the two baud-rate registers together
hold the divisor whole, and `PR.U2X` the speed it belongs to. -/
def Obligations.BeginProgramsTheWholeDivisor : Prop :=
  ∀ (s : State) (p : Port) (rate : Nat) (line : Byte) (d : Nat) (u2x : Bool),
    s.cfg.wf → s.port? = some p → baudcalc s.cfg s.cfg.clockHz rate s.cfg.preferU2x = .ok d u2x →
    ∃ t q, exec (.beginPort rate line) s = .next t ∧ t.port? = some q ∧
      q.pr.brh.toNat * 256 + q.pr.brl.toNat = d ∧ q.pr.u2x = u2x ∧ q.pr.line = line ∧
      q.rx.empty = true ∧ q.tx.empty = true

/-- `43_portconfig.md` R141. -/
def Obligations.EndDrainsThenDisables : Prop :=
  decode (.cmd 0x200000000000#48) = .ok .endPort ∧
  ∀ (s : State) (p : Port), s.port? = some p →
    (p.tx.head ≠ p.tx.tail →
      exec .endPort s = .next { s with pend := some ⟨s.cur, 0x200000000000#48, .w1⟩, out := {} }) ∧
    (p.tx.head = p.tx.tail →
      exec .endPort s = .next { s with
        ports := s.ports.set s.cur { p with
          pr := { p.pr with rxen := false, txen := false, rxie := false, txie := false }
          rx := { p.rx with tail := p.rx.head } }
        pend := none
        out := { rsp := some 0x00000#18 } })

/-- `43_portconfig.md` R141 corner case (e): once END has completed, neither handler can step on the port
whatever the peripheral does, until some command enables one again. That RXI and TXI, not enabled, answer a
next state with only the outputs changed is the model's choice (log 3). -/
def Obligations.EndSilencesBothHandlers : Prop :=
  ∀ (s : State) (p : Port) (a : PeriphAct), s.port? = some p → p.tx.empty = true →
    ∃ t q, exec .endPort s = .next t ∧ t.port? = some q ∧ q.rx.empty = true ∧
      exec .rxi { t with ports := t.ports.set t.cur (q.periph a) } =
        .next { t with ports := t.ports.set t.cur (q.periph a), out := {} } ∧
      exec .txi { t with ports := t.ports.set t.cur (q.periph a) } =
        .next { t with ports := t.ports.set t.cur (q.periph a), out := {} }

/-! ### The handlers -/

/-- `10_state.md` R30, `30_encoding.md` R76: the event word is the two lines, and a handler steps only while
its line is 1 (with the line 0 the model's step changes nothing, log 3). -/
def Obligations.EventLinesEnableTheHandlers : Prop :=
  (∀ pr : PeriphRegs, (pr.eventWord.getLsbD 0 = true ↔ pr.rxc = true ∧ pr.rxie = true) ∧
    (pr.eventWord.getLsbD 1 = true ↔ pr.dre = true ∧ pr.txie = true)) ∧
  (∀ w : EventWord, (.rxi ∈ eventHandlers w ↔ w.getLsbD 0 = true) ∧
    (.txi ∈ eventHandlers w ↔ w.getLsbD 1 = true)) ∧
  ∀ (s : State) (p : Port), s.port? = some p →
    (p.pr.eventWord.getLsbD 0 = false → exec .rxi s = .next { s with out := {} }) ∧
    (p.pr.eventWord.getLsbD 1 = false → exec .txi s = .next { s with out := {} })

/-- `44_handlers.md` R161: the event is consumed; an errored byte is dropped without touching `RX`, full or
not; otherwise the byte is pushed with the ninth bit as found. -/
def Obligations.RxiTakesOneByte : Prop :=
  (∀ w : EventWord, w &&& 0b01#2 = 0b01#2 → .rxi ∈ eventHandlers w) ∧
  ∀ (s : State) (p : Port), s.port? = some p → p.pr.rxc = true → p.pr.rxie = true →
    (p.pr.err = true →
      exec .rxi s = .next { s with
        ports := s.ports.set s.cur { p with pr := { p.pr with err := false, rxc := false } }
        out := { reports := [.frameParityError] } }) ∧
    (p.pr.err = false → (p.rx.head + 1) % s.cfg.nRx = p.rx.tail →
      exec .rxi s = .next { s with
        ports := s.ports.set s.cur { p with
          pr := { p.pr with err := false, rxc := false }, rx := { p.rx with ovf := true } }
        out := { reports := [.bufferOverflow .rx] } }) ∧
    (p.pr.err = false → (p.rx.head + 1) % s.cfg.nRx ≠ p.rx.tail → p.rx.data.wf → p.rx.bits.wf →
      ∃ r', p.rx.Appended s.cfg.nRx p.pr.rxdata p.pr.rxb8 r' ∧
        exec .rxi s = .next { s with
          ports := s.ports.set s.cur { p with pr := { p.pr with err := false, rxc := false }, rx := r' }
          out := {} })

/-- `44_handlers.md` R162: with `TX` empty the source is disabled and nothing else changes; otherwise the
oldest pair goes to `TXB8` and `TXDATA`, `DRE` falls, the frame is handed over, and neither `TXIE`, `TXING`
nor `TXC` changes. That `HOLD` becomes the frame, whatever it held, is the reference peripheral of
`60_exceptions.md` R216 as the model presumes it (log 15), and no part of R162. -/
def Obligations.TxiHandsOverOneFrame : Prop :=
  (∀ w : EventWord, w &&& 0b10#2 = 0b10#2 → .txi ∈ eventHandlers w) ∧
  ∀ (s : State) (p : Port), s.port? = some p → p.pr.dre = true → p.pr.txie = true →
    (p.tx.head = p.tx.tail →
      exec .txi s = .next { s with
        ports := s.ports.set s.cur { p with pr := { p.pr with txie := false } }, out := {} }) ∧
    (p.tx.head ≠ p.tx.tail →
      exec .txi s = .next { s with
        ports := s.ports.set s.cur { p with
          tx := { p.tx with tail := (p.tx.tail + 1) % s.cfg.nTx, ovf := false }
          pr := { p.pr with
            txb8 := p.tx.bitRead p.tx.tail, txdata := p.tx.data.read p.tx.tail, dre := false }
          ref := { p.ref with hold := some ⟨p.tx.bitRead p.tx.tail, p.tx.data.read p.tx.tail⟩ } }
        out := {} })

/-- `20_memory.md` R59, `60_exceptions.md` R208: RXI and TXI of one port commute; only the outputs of the
latest step differ. A handler that is not enabled takes the model's idle step in either place (log 3). -/
def Obligations.HandlersCommute : Prop :=
  ∀ (s : State) (p : Port), s.port? = some p →
    ∃ a b c d, exec .rxi s = .next a ∧ exec .txi a = .next b ∧ exec .txi s = .next c ∧ exec .rxi c = .next d ∧
      b = { d with out := b.out }

/-- `60_exceptions.md` R210: after its step a handler's own line is 0. -/
def Obligations.HandlerStepLowersItsLine : Prop :=
  ∀ (s : State) (p : Port), s.port? = some p →
    (p.pr.rxIrq = true → ∃ t q, exec .rxi s = .next t ∧ t.port? = some q ∧ q.pr.rxIrq = false ∧
      q.tx = p.tx ∧ q.txing = p.txing ∧ q.pr.txIrq = p.pr.txIrq) ∧
    (p.pr.txIrq = true → ∃ t q, exec .txi s = .next t ∧ t.port? = some q ∧ q.pr.txIrq = false ∧
      q.rx = p.rx ∧ q.txing = p.txing ∧ q.pr.txc = p.pr.txc ∧ q.pr.rxIrq = p.pr.rxIrq)

/-! ### The transport operations -/

/-- `45_transport.md` R180 (`WRITE_SPLIT` false): WRITE holds while `TX` is full; otherwise it pushes,
enables the source, sets `TXING`, clears `TXC` and answers 1. -/
def Obligations.WriteEnqueuesAndArms : Prop :=
  (∀ w : CmdWord, w &&& 0xFFFFFFFFFE00#48 = 0x300000000000#48 →
    decode (.cmd w) = .ok (.write (w.getLsbD 8) (w.extractLsb' 0 8))) ∧
  ∀ (s : State) (p : Port) (ninth : Bool) (byte : Byte), s.port? = some p → s.cfg.writeSplit = false →
    ((p.tx.head + 1) % s.cfg.nTx = p.tx.tail →
      ∃ w, encode (.write ninth byte) = .cmd w ∧
        exec (.write ninth byte) s = .next { s with pend := some ⟨s.cur, w, .w1⟩, out := {} }) ∧
    ((p.tx.head + 1) % s.cfg.nTx ≠ p.tx.tail → p.tx.data.wf → p.tx.bits.wf →
      ∃ r', p.tx.Appended s.cfg.nTx byte ninth r' ∧
        exec (.write ninth byte) s = .next { s with
          ports := s.ports.set s.cur { p with
            tx := r', txing := true, pr := { p.pr with txie := true, txc := false } }
          pend := none
          out := { rsp := some 0x00001#18 } })

/-- `45_transport.md` R181 (`WRITE_SPLIT` true): W0 and W1 in one step, then W2, W3 and W4, each a step of
its own that leaves the command in `PEND` until W4 answers. -/
def Obligations.SplitWriteTakesItsMicroSteps : Prop :=
  ∀ (s : State) (p : Port) (ninth : Bool) (byte : Byte) (w : CmdWord),
    s.port? = some p → s.cfg.writeSplit = true → encode (.write ninth byte) = .cmd w →
    (s.pend = none ∨ s.pend = some ⟨s.cur, w, .w1⟩ → (p.tx.head + 1) % s.cfg.nTx = p.tx.tail →
      exec (.write ninth byte) s = .next { s with pend := some ⟨s.cur, w, .w1⟩, out := {} }) ∧
    (s.pend = none ∨ s.pend = some ⟨s.cur, w, .w1⟩ → (p.tx.head + 1) % s.cfg.nTx ≠ p.tx.tail →
      p.tx.data.wf → p.tx.bits.wf →
      ∃ r', p.tx.Appended s.cfg.nTx byte ninth r' ∧
        exec (.write ninth byte) s = .next { s with
          ports := s.ports.set s.cur { p with tx := r' }, pend := some ⟨s.cur, w, .w2⟩, out := {} }) ∧
    (s.pend = some ⟨s.cur, w, .w2⟩ →
      exec (.write ninth byte) s = .next { s with
        ports := s.ports.set s.cur { p with pr := { p.pr with txie := true } }
        pend := some ⟨s.cur, w, .w3⟩, out := {} }) ∧
    (s.pend = some ⟨s.cur, w, .w3⟩ →
      exec (.write ninth byte) s = .next { s with
        ports := s.ports.set s.cur { p with txing := true }, pend := some ⟨s.cur, w, .w4⟩, out := {} }) ∧
    (s.pend = some ⟨s.cur, w, .w4⟩ →
      exec (.write ninth byte) s = .next { s with
        ports := s.ports.set s.cur { p with pr := { p.pr with txc := false } }
        pend := none, out := { rsp := some 0x00001#18 } })

/-- `45_transport.md` R182. -/
def Obligations.FlushWaitsForCompletion : Prop :=
  decode (.cmd 0x400000000000#48) = .ok .flush ∧
  ∀ (s : State) (p : Port), s.port? = some p →
    (p.txing = true ∧ p.pr.txc = false →
      exec .flush s = .next { s with pend := some ⟨s.cur, 0x400000000000#48, .w1⟩, out := {} }) ∧
    (p.txing = false ∨ p.pr.txc = true →
      exec .flush s = .next { s with
        ports := s.ports.set s.cur { p with txing := false }, pend := none, out := { rsp := some 0x00000#18 } })

/-- `45_transport.md` R183: with data, STATUS is OK and VALUE is ninth ∥ byte, at most 0x01FF; the flag is
cleared. On an empty ring nothing changes and the sentinel is answered. -/
def Obligations.ReadDeliversByteAndNinthBit : Prop :=
  decode (.cmd 0x500000000000#48) = .ok .read ∧
  ∀ (s : State) (p : Port), s.port? = some p →
    (p.rx.head = p.rx.tail →
      exec .read s = .next { s with pend := none, out := { rsp := some 0x1FFFF#18 } }) ∧
    (p.rx.head ≠ p.rx.tail →
      ∃ rsp : RspWord,
        exec .read s = .next { s with
          ports := s.ports.set s.cur { p with
            rx := { p.rx with tail := (p.rx.tail + 1) % s.cfg.nRx, ovf := false } }
          pend := none
          out := { rsp := some rsp } } ∧
        rsp.toNat = (p.rx.bitRead p.rx.tail).toNat * 256 + (p.rx.data.read p.rx.tail).toNat)

/-- `45_transport.md` R184: PEEKC answers what the next READ would answer and changes no state. -/
def Obligations.PeekcAnswersWithoutReading : Prop :=
  decode (.cmd 0x600000000000#48) = .ok .peekc ∧
  ∀ (s : State) (p : Port), s.port? = some p →
    (p.rx.head = p.rx.tail →
      exec .peekc s = .next { s with pend := none, out := { rsp := some 0x1FFFF#18 } }) ∧
    (p.rx.head ≠ p.rx.tail →
      ∃ rsp : RspWord,
        exec .peekc s = .next { s with pend := none, out := { rsp := some rsp } } ∧
        rsp.toNat = (p.rx.bitRead p.rx.tail).toNat * 256 + (p.rx.data.read p.rx.tail).toNat) ∧
    ∃ t u, exec .peekc s = .next t ∧ exec .read t = .next u ∧ u.out.rsp = t.out.rsp

/-- `45_transport.md` R185: AVAILABLE answers `occ(RX)`, whole within 16 bits, and changes no state. -/
def Obligations.AvailableCountsReceivedBytes : Prop :=
  decode (.cmd 0x700000000000#48) = .ok .available ∧
  ∀ (s : State) (p : Port), s.port? = some p → s.cfg.wf →
    ∃ rsp : RspWord,
      exec .available s = .next { s with pend := none, out := { rsp := some rsp } } ∧
      rsp.toNat = (s.cfg.nRx + p.rx.head - p.rx.tail) % s.cfg.nRx

/-- `45_transport.md` R186: OVERFLOW answers `RX.ovf` and clears nothing. -/
def Obligations.OverflowReportsTheStickyFlag : Prop :=
  decode (.cmd 0x800000000000#48) = .ok .overflow ∧
  ∀ (s : State) (p : Port), s.port? = some p →
    exec .overflow s = .next { s with
      pend := none, out := { rsp := some (if p.rx.ovf = true then 0x00001#18 else 0x00000#18) } }

/-- `45_transport.md` R189: frames keep their order and their ninth bits. TXI hands over the oldest pair of
`TX` and READ answers the oldest pair of `RX`; the others stay, in order. That the frame handed over is what
`HOLD` then holds is the model's reference peripheral (`60_exceptions.md` R216, log 15). -/
def Obligations.FramesLeaveOldestFirst : Prop :=
  (∀ (s : State) (p : Port) (byte : Byte) (ninth : Bool) (l : List (Byte × Bool)),
    s.port? = some p → 2 ≤ s.cfg.nTx → p.tx.wf s.cfg.nTx → p.pr.txIrq = true →
    p.tx.held s.cfg.nTx = (byte, ninth) :: l →
    ∃ t q, exec .txi s = .next t ∧ t.port? = some q ∧ q.ref.hold = some ⟨ninth, byte⟩ ∧
      q.pr.txb8 = ninth ∧ q.pr.txdata = byte ∧ q.tx.held s.cfg.nTx = l) ∧
  (∀ (s : State) (p : Port) (byte : Byte) (ninth : Bool) (l : List (Byte × Bool)),
    s.port? = some p → 2 ≤ s.cfg.nRx → p.rx.wf s.cfg.nRx →
    p.rx.held s.cfg.nRx = (byte, ninth) :: l →
    ∃ t q rsp, exec .read s = .next t ∧ t.port? = some q ∧ t.out.rsp = some rsp ∧
      rsp.toNat = ninth.toNat * 256 + byte.toNat ∧ q.rx.held s.cfg.nRx = l)

/-! ### Held commands and liveness -/

/-- `30_encoding.md` R78, `60_exceptions.md` R204: a held command is never withdrawn. Any step either leaves
it held as it was, or is MAIN's: then it stays held exactly one micro-step on, or completes on its own port
with a response, a split WRITE only from W4 (`45_transport.md` R181). No other command is presented
meanwhile. -/
def Obligations.HeldCommandIsNeverWithdrawn : Prop :=
  ∀ (s t : State) (q : Pending), s.Inv → s.pend = some q → step s = .next t →
    t.app = s.app ∧
    (t.pend = some q ∨
      (s.sched.head? = some .main ∧
        ((∃ ph, q.phase.next = some ph ∧ t.pend = some { q with phase := ph }) ∨
         (t.pend = none ∧ t.cur = q.port ∧ (∃ rsp, t.out.rsp = some rsp) ∧
           (s.cfg.writeSplit = true → ∀ x b, decode (.cmd q.word) = .ok (.write x b) → q.phase = .w4)))))

/-- `45_transport.md` R188, the source's scenario S7: a WRITE held on a full `TX` completes after one TXI
step that pops, and its byte is then the newest of the ring. -/
def Obligations.HeldWriteCompletesAfterOnePop : Prop :=
  ∀ (s : State) (k : Nat) (p : Port) (ninth : Bool) (byte : Byte) (w : CmdWord) (rest : List Move),
    s.Inv → s.cfg.writeSplit = false → encode (.write ninth byte) = .cmd w →
    s.pend = some ⟨k, w, .w1⟩ → s.ports[k]? = some p → p.tx.full s.cfg.nTx = true → p.pr.txIrq = true →
    s.sched = .txi k :: .main :: rest →
    ∃ t q, s.run 2 = .next t ∧ t.pend = none ∧ t.out.rsp = some 0x00001#18 ∧ t.sched = rest ∧
      t.ports[k]? = some q ∧ q.tx.held s.cfg.nTx = (p.tx.held s.cfg.nTx).tail ++ [(byte, ninth)]

/-- `70_reset_and_hazards.md` R246 for END with the reference peripheral of `60_exceptions.md` R216: under
the schedule that serves SENT, LOAD and TXI once per byte held, a held END completes, every byte held in
`TX` has been handed to the peripheral in order with its ninth bit, and both rings are empty. The peripheral
is the model's (log 15), and a SENT or LOAD of the schedule that is not enabled takes the model's idle step
(log 3). -/
def Obligations.HeldEndCompletesAndLosesNothing : Prop :=
  ∀ (s : State) (k : Nat) (p : Port) (w : CmdWord), s.Inv → encode .endPort = .cmd w →
    s.pend = some ⟨k, w, .w1⟩ → s.ports[k]? = some p → p.pr.txie = true →
    (p.pr.dre = true ∨ p.ref.hold ≠ none) →
    s.sched = (List.replicate (p.tx.occ s.cfg.nTx) (drainRound k)).flatten ++ [.main] →
    ∃ t q, s.run (3 * p.tx.occ s.cfg.nTx + 1) = .next t ∧ t.pend = none ∧ t.out.rsp = some 0x00000#18 ∧
      t.ports[k]? = some q ∧ q.tx.empty = true ∧ q.rx.empty = true ∧
      q.ref.frames = p.ref.frames ++ (p.tx.held s.cfg.nTx).map fun x => ⟨x.2, x.1⟩

/-- `45_transport.md` R181, the lost completion: when a split WRITE reaches W4 after the peripheral has
already completed its byte, W4 clears that completion and a following FLUSH holds. -/
def Obligations.SplitWriteCanLoseTheCompletion : Prop :=
  ∀ (s : State) (p : Port) (ninth : Bool) (byte : Byte) (w : CmdWord),
    s.port? = some p → s.cfg.writeSplit = true → encode (.write ninth byte) = .cmd w →
    s.pend = some ⟨s.cur, w, .w4⟩ → p.txing = true → p.pr.txc = true →
    ∃ t u q, exec (.write ninth byte) s = .next t ∧ t.out.rsp = some 0x00001#18 ∧ t.pend = none ∧
      exec .flush t = .next u ∧ u.pend = some ⟨s.cur, 0x400000000000#48, .w1⟩ ∧ u.out.rsp = none ∧
      u.port? = some q ∧ q.txing = true ∧ q.pr.txc = false

/-- `20_memory.md` R61: RXI and READ in the same instant. On a full ring with a good frame the outcome is
(c): the byte is dropped, the oldest is delivered, the flag is left set. In every other case the state ends
as after one of the two orders, READ answers what it answers in that order, and the conditions reported are
those RXI reports in it. The move itself is the model's choice (log 14). -/
def Obligations.SameInstantHasThreeOutcomes : Prop :=
  ∀ (s : State) (k : Nat) (p : Port) (w : CmdWord) (cs : List AppCmd) (rest : List Move),
    s.Inv → s.pend = none → s.app = ⟨k, w⟩ :: cs → decode (.cmd w) = .ok .read →
    s.ports[k]? = some p → p.pr.rxIrq = true → s.sched = .rxiWithRead k :: rest →
    (p.rx.full s.cfg.nRx = true → p.pr.err = false →
      ∃ t, step s = .next t ∧ t.pend = none ∧ t.app = cs ∧ t.sched = rest ∧
        t.out.rsp = some (dataRsp (some (p.rx.slot p.rx.tail))) ∧ t.out.reports = [.bufferOverflow .rx] ∧
        t.ports = s.ports.set k { p with
          pr := { p.pr with rxc := false, err := false }
          rx := { p.rx with tail := (p.rx.tail + 1) % s.cfg.nRx, ovf := true } }) ∧
    (¬ (p.rx.full s.cfg.nRx = true ∧ p.pr.err = false) →
      ∃ t u v, step s = .next t ∧ step v = .next u ∧
        u.ports = t.ports ∧ u.pend = t.pend ∧ u.app = t.app ∧ u.sched = t.sched ∧
        t.out.rsp = some (dataRsp (if p.rx.head = p.rx.tail then none else some (p.rx.slot p.rx.tail))) ∧
        t.out.reports = (if p.pr.err then [.frameParityError] else []) ∧
        ((step { s with sched := .rxi k :: .main :: rest } = .next v ∧
            t.out.rsp = u.out.rsp ∧ t.out.reports = v.out.reports) ∨
         (step { s with sched := .main :: .rxi k :: rest } = .next v ∧
            t.out.rsp = v.out.rsp ∧ t.out.reports = u.out.reports)))

/-! ### The whole machine -/

/-- Every step keeps the shape of the state: parameters admitted, one entry per port, ring indices inside
their rings (`10_state.md` R21), ring storage canonical and inside its bounds, and only a guarded command
held, on a port that exists. -/
def Obligations.EveryStepKeepsTheShape : Prop :=
  ∀ s t : State, s.Inv → step s = .next t → t.Inv

/-- `10_state.md` R35: reset has that shape, for all parameters R5 admits and all canonical unspecified
contents inside their bounds; and so has the model's own `State.reset`. -/
def Obligations.ResetHasTheShape : Prop :=
  (∀ (c : Params) (u : Nat → PowerOn), c.wf →
    (∀ k, ((u k).rxData.wf ∧ (u k).rxData.below c.nRx) ∧ ((u k).rxBits.wf ∧ (u k).rxBits.below ((c.nRx + 7) / 8)) ∧
      ((u k).txData.wf ∧ (u k).txData.below c.nTx) ∧ ((u k).txBits.wf ∧ (u k).txBits.below ((c.nTx + 7) / 8))) →
    (State.resetWith c u).Inv) ∧
  State.reset.Inv

/-- `10_state.md` R35, the values the spec gives, on every port, whatever the unspecified ones are: indices
and flags 0, `PEND` none, the four enables 0, so both event lines are 0. -/
def Obligations.ResetLeavesThePortIdle : Prop :=
  ∀ (c : Params) (u : Nat → PowerOn) (k : Nat), k < c.nPorts →
    (State.resetWith c u).pend = none ∧
    ∃ p, (State.resetWith c u).ports[k]? = some p ∧
      (p.rx.head = 0 ∧ p.rx.tail = 0 ∧ p.rx.ovf = false) ∧ (p.tx.head = 0 ∧ p.tx.tail = 0 ∧ p.tx.ovf = false) ∧
      p.nine = false ∧ p.txing = false ∧
      p.pr.rxen = false ∧ p.pr.txen = false ∧ p.pr.rxie = false ∧ p.pr.txie = false ∧ p.pr.eventWord = 0#2

/-- `70_reset_and_hazards.md` R232: before the first BEGIN, on any port and whatever the unspecified values
are, READ and PEEKC answer NO_DATA, AVAILABLE and OVERFLOW answer 0, FLUSH and END complete at once, and
RXI cannot step. That RXI, not enabled, answers a next state with only the outputs changed is the model's
choice (log 3). -/
def Obligations.CommandsBeforeBegin : Prop :=
  ∀ (c : Params) (u : Nat → PowerOn) (k : Nat), c.wf → k < c.nPorts →
    let s : State := { State.resetWith c u with cur := k }
    (∀ i, i = .read ∨ i = .peekc → exec i s = .next { s with out := { rsp := some 0x1FFFF#18 } }) ∧
    (∀ i, i = .available ∨ i = .overflow ∨ i = .flush ∨ i = .endPort →
      exec i s = .next { s with out := { rsp := some 0x00000#18 } }) ∧
    exec .rxi s = .next { s with out := {} }

/-- `10_state.md` R25 with `90_conflicts.md` C3, and `43_portconfig.md` R141 corner case (b): under the
agents' moves `TX.ovf` stays 0 and no byte is stranded in `TX` with its interrupt source disabled, but for
the instant inside a split WRITE. -/
def Obligations.TransmitRingNeverOverflowsNorStrands : Prop :=
  ∀ s t : State, s.Inv → s.inContract → s.txArmed → step s = .next t → t.inContract ∧ t.txArmed

/-- Reset meets that invariant's port part, for all parameters and unspecified values; and its schedule part,
because the reset schedule is empty, which is the model's choice (log 2). -/
def Obligations.ResetIsArmed : Prop :=
  ∀ (c : Params) (u : Nat → PowerOn), (State.resetWith c u).txArmed ∧ (State.resetWith c u).inContract

/-- `10_state.md` R25: over all operations, a ring's overflow flag is set only by a PUSH that finds that
ring full, and cleared only by a successful POP of that ring or by CLEAR. -/
def Obligations.OverflowFlagIsSticky : Prop :=
  ∀ (i : Instr) (s t : State) (p q : Port), exec i s = .next t → s.port? = some p → t.port? = some q →
    (p.rx.ovf = false → q.rx.ovf = true →
      (i = .rxi ∨ ∃ x b, i = .push .rx x b) ∧ p.rx.full s.cfg.nRx = true) ∧
    (p.rx.ovf = true → q.rx.ovf = false →
      ((i = .read ∨ i = .pop .rx) ∧ p.rx.empty = false) ∨ i = .clear .rx ∨ ∃ r l, i = .beginPort r l) ∧
    (p.tx.ovf = false → q.tx.ovf = true → (∃ x b, i = .push .tx x b) ∧ p.tx.full s.cfg.nTx = true) ∧
    (p.tx.ovf = true → q.tx.ovf = false →
      ((i = .txi ∨ i = .pop .tx) ∧ p.tx.empty = false) ∨ i = .clear .tx ∨ ∃ r l, i = .beginPort r l)

/-- `10_state.md` R26, R27 and the "Written by" column of R28, over all operations and all ports: who may
change `NINE`, `TXING` and each field of PR, and that the block only ever clears a status bit it clears. The
clauses about `ref` are about the model's reference peripheral (`60_exceptions.md` R216, log 15). -/
def Obligations.EachRegisterHasItsWriters : Prop :=
  ∀ (i : Instr) (s t : State) (k : Nat) (p q : Port),
    exec i s = .next t → s.ports[k]? = some p → t.ports[k]? = some q →
    ((∀ r l, i ≠ .beginPort r l) →
      q.nine = p.nine ∧ q.pr.brh = p.pr.brh ∧ q.pr.brl = p.pr.brl ∧ q.pr.u2x = p.pr.u2x ∧ q.pr.line = p.pr.line) ∧
    ((∀ r l, i ≠ .beginPort r l) → i ≠ .flush → (∀ x b, i ≠ .write x b) → q.txing = p.txing) ∧
    ((∀ r l, i ≠ .beginPort r l) → i ≠ .endPort →
      q.pr.rxen = p.pr.rxen ∧ q.pr.txen = p.pr.txen ∧ q.pr.rxie = p.pr.rxie) ∧
    ((∀ r l, i ≠ .beginPort r l) → i ≠ .endPort → i ≠ .txi → (∀ x b, i ≠ .write x b) →
      q.pr.txie = p.pr.txie) ∧
    (i ≠ .txi →
      q.pr.txb8 = p.pr.txb8 ∧ q.pr.txdata = p.pr.txdata ∧ q.pr.dre = p.pr.dre ∧ q.ref.hold = p.ref.hold) ∧
    ((∀ x b, i ≠ .write x b) → q.pr.txc = p.pr.txc) ∧
    (i ≠ .rxi → q.pr.rxc = p.pr.rxc ∧ q.pr.err = p.pr.err) ∧
    (q.pr.rxb8 = p.pr.rxb8 ∧ q.pr.rxdata = p.pr.rxdata ∧ q.ref.shift = p.ref.shift ∧
      q.ref.wireOut = p.ref.wireOut ∧ q.ref.wireIn = p.ref.wireIn) ∧
    ((q.pr.txc = true → p.pr.txc = true) ∧ (q.pr.dre = true → p.pr.dre = true) ∧
      (q.pr.rxc = true → p.pr.rxc = true) ∧ (q.pr.err = true → p.pr.err = true))

/-- `20_memory.md` R58, over all operations of the agents and all ports: each ring variable changes only at
the hands of the agents that own it. -/
def Obligations.EachRingVariableHasItsWriters : Prop :=
  ∀ (i : Instr) (s t : State) (k : Nat) (p q : Port),
    exec i s = .next t → s.ports[k]? = some p → t.ports[k]? = some q →
    (∀ w rb, encode i ≠ .ring rb w) → (∀ r l, i ≠ .beginPort r l) →
    (i ≠ .rxi → q.rx.head = p.rx.head ∧ q.rx.data = p.rx.data ∧ q.rx.bits = p.rx.bits) ∧
    (i ≠ .read → i ≠ .endPort → q.rx.tail = p.rx.tail) ∧
    (i ≠ .rxi → i ≠ .read → q.rx.ovf = p.rx.ovf) ∧
    ((∀ x b, i ≠ .write x b) → q.tx.head = p.tx.head ∧ q.tx.data = p.tx.data ∧ q.tx.bits = p.tx.bits) ∧
    (i ≠ .txi → q.tx.tail = p.tx.tail ∧ q.tx.ovf = p.tx.ovf)

/-- `60_exceptions.md` R215: a move of PERIPH writes no block-owned field, no ring, neither flag, and not
`PEND`; and it can give the six peripheral-owned fields any values whatever. -/
def Obligations.PeripheralKeepsTheContract : Prop :=
  (∀ (s t : State) (k : Nat) (a : PeriphAct) (rest : List Move) (p : Port),
    s.sched = .periph k a :: rest → s.ports[k]? = some p → step s = .next t →
    t.pend = s.pend ∧ t.app = s.app ∧ t.out = {} ∧
    ∃ q, t.ports = s.ports.set k q ∧ q.rx = p.rx ∧ q.tx = p.tx ∧ q.nine = p.nine ∧ q.txing = p.txing ∧
      q.pr = { p.pr with txc := q.pr.txc, dre := q.pr.dre, rxc := q.pr.rxc, err := q.pr.err,
                         rxb8 := q.pr.rxb8, rxdata := q.pr.rxdata }) ∧
  (∀ (s : State) (k : Nat) (rest : List Move) (p : Port) (txc dre rxc err rxb8 : Bool) (rxdata : Byte),
    s.ports[k]? = some p → s.sched = .periph k (.drive txc dre rxc err rxb8 rxdata) :: rest →
    step s = .next { s with
      sched := rest, cur := k, out := {}
      ports := s.ports.set k { p with pr := { p.pr with
        txc := txc, dre := dre, rxc := rxc, err := err, rxb8 := rxb8, rxdata := rxdata } } })

/-- `60_exceptions.md` R216: what LOAD, SENT and RECV do where they are enabled, on the reference peripheral
that the model holds (log 15). That a move that is not enabled is made and changes nothing is the model's
choice (log 3). -/
def Obligations.ReferencePeripheralMovesFrames : Prop :=
  ∀ p : Port,
    (∀ f, p.ref.hold = some f → p.ref.shift = none →
      p.periph .load = { p with
        ref := { p.ref with shift := some f, hold := none }, pr := { p.pr with dre := true } }) ∧
    (p.ref.hold = none ∨ p.ref.shift ≠ none → p.periph .load = p) ∧
    (∀ f, p.ref.shift = some f → p.ref.hold = none →
      p.periph .sent = { p with
        ref := { p.ref with wireOut := p.ref.wireOut ++ [f], shift := none }, pr := { p.pr with txc := true } }) ∧
    (∀ f, p.ref.shift = some f → p.ref.hold ≠ none →
      p.periph .sent = { p with ref := { p.ref with wireOut := p.ref.wireOut ++ [f], shift := none } }) ∧
    (p.ref.shift = none → p.periph .sent = p) ∧
    (∀ byte b8 err, p.pr.rxen = true →
      p.periph (.recv byte b8 err) = { p with
        pr := { p.pr with rxdata := byte, rxb8 := b8, err := err, rxc := true }
        ref := { p.ref with wireIn := p.ref.wireIn ++ [⟨b8, byte, err⟩] } }) ∧
    (∀ byte b8 err, p.pr.rxen = false → p.periph (.recv byte b8 err) = p)

/-- `00_scope.md` R10, R5: a step touches the state of one port only, and no step changes the parameters or
the number of ports. -/
def Obligations.PortsAreIndependent : Prop :=
  ∀ s t : State, step s = .next t →
    (∀ k, k ≠ t.cur → t.ports[k]? = s.ports[k]?) ∧ t.cfg = s.cfg ∧ t.ports.length = s.ports.length

/-- `00_scope.md` R10: no rule reads the state of another port. Two machines that agree on everything but
the other ports answer the same and leave the same port. -/
def Obligations.OtherPortsDoNotLeak : Prop :=
  ∀ (i : Instr) (s s' t : State),
    s'.cfg = s.cfg → s'.cur = s.cur → s'.pend = s.pend → s'.port? = s.port? → exec i s = .next t →
    ∃ t', exec i s' = .next t' ∧ t'.port? = t.port? ∧ t'.out = t.out ∧ t'.pend = t.pend

/-- `45_transport.md` R185: between two mainline commands the count of `RX` can only grow. -/
def Obligations.AvailableOnlyGrowsBetweenCommands : Prop :=
  ∀ (s t : State) (m : Move) (rest : List Move) (k : Nat) (p q : Port),
    s.Inv → s.sched = m :: rest → ((∃ j, m = .rxi j) ∨ (∃ j, m = .txi j) ∨ ∃ j a, m = .periph j a) →
    step s = .next t → s.ports[k]? = some p → t.ports[k]? = some q →
    p.rx.occ s.cfg.nRx ≤ q.rx.occ s.cfg.nRx

/-- `70_reset_and_hazards.md` R247: in a finished run neither MAIN nor a handler of any port has a step. That
each, scheduled all the same, takes a step that leaves the ports as they were and the run finished is the
model's choice (log 3). -/
def Obligations.FinishedRunIsQuiet : Prop :=
  ∀ (s : State) (m : Move) (rest : List Move), s.runOver → s.sched = m :: rest →
    (m = .main ∨ (∃ k, (m = .rxi k ∨ m = .txi k) ∧ k < s.ports.length)) →
    ∃ t, step s = .next t ∧ t.ports = s.ports ∧ t.runOver
end

