-- ==== Sys2Proof/Laws/Encoding.lean ====
section
/-! SUPPORT. The fields of a request word: what a field built into a word reads as, a word as the union of
its fields, and what each mask of the table selects. -/

namespace Sys2Proof

theorem field_getLsbD {n m lo i : Nat} (v : BitVec m) : (field (n := n) lo v).getLsbD i =
    (decide (i < n) && !decide (i < lo) && v.getLsbD (i - lo)) := by
  simp only [field, BitVec.getLsbD_shiftLeft, BitVec.getLsbD_setWidth]
  by_cases h : i < n
  · have : i - lo < n := by omega
    simp [h, this]
  · simp [h]

/-- A ring request word is the word of its three fields. -/
theorem rop_fields (w : RopWord) : w = ropWord (w.extractLsb' 9 3) (w.getLsbD 8) (w.extractLsb' 0 8) := by
  apply BitVec.eq_of_getLsbD_eq
  intro i hi
  unfold ropWord
  simp only [BitVec.getLsbD_or, field_getLsbD, BitVec.getLsbD_extractLsb', BitVec.getLsbD_ofBool]
  interval_cases i <;> simp

/-- A command word split as BEGIN reads it. -/
theorem cmd_fields_begin (w : CmdWord) :
    w = field 40 (w.extractLsb' 40 8) ||| field 32 (w.extractLsb' 32 8) ||| field 0 (w.extractLsb' 0 32) := by
  apply BitVec.eq_of_getLsbD_eq
  intro i hi
  simp only [BitVec.getLsbD_or, field_getLsbD, BitVec.getLsbD_extractLsb']
  interval_cases i <;> simp

/-- A command word split as WRITE reads it. -/
theorem cmd_fields_write (w : CmdWord) : w = field 9 (w.extractLsb' 9 39) |||
    field 8 (BitVec.ofBool (w.getLsbD 8)) ||| field 0 (w.extractLsb' 0 8) := by
  apply BitVec.eq_of_getLsbD_eq
  intro i hi
  simp only [BitVec.getLsbD_or, field_getLsbD, BitVec.getLsbD_extractLsb', BitVec.getLsbD_ofBool]
  interval_cases i <;> simp

/-- A mask of the top `k` bits selects on those bits alone. -/
theorem selects_iff {n lo : Nat} (k : Nat) (w m v : BitVec n) (hm : m = (BitVec.allOnes k).setWidth n <<< lo)
    (hv : v = (v.extractLsb' lo k).setWidth n <<< lo) (hn : n = lo + k) :
    selects w m v = true ↔ w.extractLsb' lo k = v.extractLsb' lo k := by
  unfold selects
  rw [beq_iff_eq]
  constructor
  · intro h
    rw [← h]
    apply BitVec.eq_of_getLsbD_eq
    intro i hi
    have : lo + i < n := by omega
    simp [hm, hi, this]
  · intro h
    rw [hv, ← h, hm]
    apply BitVec.eq_of_getLsbD_eq
    intro i hi
    simp
    by_cases h1 : i < lo
    · simp [h1]
    · have : i - lo < n := by omega
      have : i - lo < k := by omega
      have : lo + (i - lo) = i := by omega
      simp [*]
      cases w.getLsbD i <;> simp

theorem selects_begin (w : CmdWord) :
    selects w 0xFF0000000000#48 0x100000000000#48 = true ↔ w.extractLsb' 40 8 = 0x10#8 :=
  selects_iff 8 w _ _ (lo := 40) (by decide) (by decide) (by decide)

theorem selects_write (w : CmdWord) :
    selects w 0xFFFFFFFFFE00#48 0x300000000000#48 = true ↔ w.extractLsb' 9 39 = 0x1800000000#39 :=
  selects_iff 39 w _ _ (lo := 9) (by decide) (by decide) (by decide)

theorem selects_push (w : RopWord) : selects w 0xE00#12 0x200#12 = true ↔ w.extractLsb' 9 3 = 1#3 :=
  selects_iff 3 w _ _ (lo := 9) (by decide) (by decide) (by decide)

theorem selects_wholeCmd (w v : CmdWord) : selects w 0xFFFFFFFFFFFF#48 v = true ↔ w = v := by
  have : (0xFFFFFFFFFFFF#48 : CmdWord) = BitVec.allOnes 48 := by decide
  unfold selects
  rw [this, BitVec.and_allOnes, beq_iff_eq]

theorem selects_wholeRop (w v : RopWord) : selects w 0xFFF#12 v = true ↔ w = v := by
  have : (0xFFF#12 : RopWord) = BitVec.allOnes 12 := by decide
  unfold selects
  rw [this, BitVec.and_allOnes, beq_iff_eq]

/-- The fields of an encoded BEGIN. -/
theorem beginWord_fields (rate : Nat) (line : Byte) : (beginWord rate line).extractLsb' 40 8 = 0x10#8 ∧
    (beginWord rate line).extractLsb' 32 8 = line ∧
    (beginWord rate line).extractLsb' 0 32 = BitVec.ofNat 32 rate := by
  unfold beginWord opWord
  refine ⟨?_, ?_, ?_⟩ <;> apply BitVec.eq_of_getLsbD_eq <;> intro i hi <;>
    simp only [BitVec.getLsbD_or, field_getLsbD, BitVec.getLsbD_extractLsb', hi]
  · interval_cases i <;> simp
  · interval_cases i <;> simp
  · interval_cases i <;> simp

/-- The fields of an encoded WRITE. -/
theorem writeWord_fields (ninth : Bool) (byte : Byte) :
    (writeWord ninth byte).extractLsb' 9 39 = 0x1800000000#39 ∧ (writeWord ninth byte).getLsbD 8 = ninth ∧
    (writeWord ninth byte).extractLsb' 0 8 = byte := by
  unfold writeWord opWord
  refine ⟨?_, ?_, ?_⟩
  · apply BitVec.eq_of_getLsbD_eq; intro i hi
    simp only [BitVec.getLsbD_or, field_getLsbD, BitVec.getLsbD_extractLsb', hi, BitVec.getLsbD_ofBool]
    interval_cases i <;> simp
  · simp only [BitVec.getLsbD_or, field_getLsbD, BitVec.getLsbD_ofBool]; simp
  · apply BitVec.eq_of_getLsbD_eq; intro i hi
    simp only [BitVec.getLsbD_or, field_getLsbD, BitVec.getLsbD_extractLsb', hi, BitVec.getLsbD_ofBool]
    interval_cases i <;> simp

/-- The fields of an encoded ring request. -/
theorem ropWord_fields (prim : BitVec 3) (ninth : Bool) (byte : Byte) :
    (ropWord prim ninth byte).extractLsb' 9 3 = prim ∧ (ropWord prim ninth byte).getLsbD 8 = ninth ∧
    (ropWord prim ninth byte).extractLsb' 0 8 = byte := by
  unfold ropWord
  refine ⟨?_, ?_, ?_⟩
  · apply BitVec.eq_of_getLsbD_eq; intro i hi
    simp only [BitVec.getLsbD_or, field_getLsbD, BitVec.getLsbD_extractLsb', hi, BitVec.getLsbD_ofBool]
    interval_cases i <;> simp
  · simp only [BitVec.getLsbD_or, field_getLsbD, BitVec.getLsbD_ofBool]; simp
  · apply BitVec.eq_of_getLsbD_eq; intro i hi
    simp only [BitVec.getLsbD_or, field_getLsbD, BitVec.getLsbD_extractLsb', hi, BitVec.getLsbD_ofBool]
    interval_cases i <;> simp

end Sys2Proof
end

