-- ==== Sys2Proof/Laws/State.lean ====
section
/-! SUPPORT. One lemma per field per update of State and of a port. -/

namespace Sys2Proof.Machine

variable (s : State) (p : Port) (o : Out) (rsp : RspWord) (reps : List Condition) (w : CmdWord) (ph : WPhase)

@[simp] theorem State.commit_cfg : (s.commit p o).cfg = s.cfg := rfl
@[simp] theorem State.commit_ports : (s.commit p o).ports = s.ports.set s.cur p := rfl
@[simp] theorem State.commit_cur : (s.commit p o).cur = s.cur := rfl
@[simp] theorem State.commit_pend : (s.commit p o).pend = s.pend := rfl
@[simp] theorem State.commit_app : (s.commit p o).app = s.app := rfl
@[simp] theorem State.commit_sched : (s.commit p o).sched = s.sched := rfl
@[simp] theorem State.commit_out : (s.commit p o).out = o := rfl

@[simp] theorem State.respond_cfg : (s.respond p rsp reps).cfg = s.cfg := rfl
@[simp] theorem State.respond_ports : (s.respond p rsp reps).ports = s.ports.set s.cur p := rfl
@[simp] theorem State.respond_cur : (s.respond p rsp reps).cur = s.cur := rfl
@[simp] theorem State.respond_pend : (s.respond p rsp reps).pend = none := rfl
@[simp] theorem State.respond_app : (s.respond p rsp reps).app = s.app := rfl
@[simp] theorem State.respond_sched : (s.respond p rsp reps).sched = s.sched := rfl
@[simp] theorem State.respond_out : (s.respond p rsp reps).out = { rsp := some rsp, reports := reps } := rfl

@[simp] theorem State.hold_cfg : (s.hold w ph).cfg = s.cfg := rfl
@[simp] theorem State.hold_ports : (s.hold w ph).ports = s.ports := rfl
@[simp] theorem State.hold_cur : (s.hold w ph).cur = s.cur := rfl
@[simp] theorem State.hold_pend : (s.hold w ph).pend = some ⟨s.cur, w, ph⟩ := rfl
@[simp] theorem State.hold_app : (s.hold w ph).app = s.app := rfl
@[simp] theorem State.hold_sched : (s.hold w ph).sched = s.sched := rfl
@[simp] theorem State.hold_out : (s.hold w ph).out = {} := rfl

@[simp] theorem State.noStep_cfg : s.noStep.cfg = s.cfg := rfl
@[simp] theorem State.noStep_ports : s.noStep.ports = s.ports := rfl
@[simp] theorem State.noStep_cur : s.noStep.cur = s.cur := rfl
@[simp] theorem State.noStep_pend : s.noStep.pend = s.pend := rfl
@[simp] theorem State.noStep_app : s.noStep.app = s.app := rfl
@[simp] theorem State.noStep_sched : s.noStep.sched = s.sched := rfl
@[simp] theorem State.noStep_out : s.noStep.out = {} := rfl

@[simp] theorem Port.setRing_nine (rb : RingSel) (r : Ring) : (p.setRing rb r).nine = p.nine := by cases rb <;> rfl
@[simp] theorem Port.setRing_txing (rb : RingSel) (r : Ring) : (p.setRing rb r).txing = p.txing := by
  cases rb <;> rfl
@[simp] theorem Port.setRing_pr (rb : RingSel) (r : Ring) : (p.setRing rb r).pr = p.pr := by cases rb <;> rfl
@[simp] theorem Port.setRing_ref (rb : RingSel) (r : Ring) : (p.setRing rb r).ref = p.ref := by cases rb <;> rfl
@[simp] theorem Port.ring_setRing (rb : RingSel) (r : Ring) : (p.setRing rb r).ring rb = r := by cases rb <;> rfl
@[simp] theorem Port.setRing_self (rb : RingSel) : p.setRing rb (p.ring rb) = p := by cases rb <;> rfl

/-- Everything an operation on the current port can do. -/
theorem State.onPort_next {s t : State} {f : Port → State} (h : s.onPort f = .next t) :
    ∃ p, s.port? = some p ∧ t = f p := by
  unfold State.onPort at h
  cases hp : s.port? with
  | none => simp [hp] at h
  | some p => simp only [hp, Host.Outcome.next.injEq] at h; exact ⟨p, rfl, h.symm⟩

/-- An operation on a port that exists completes. -/
@[simp] theorem State.onPort_some {s : State} {p : Port} (f : Port → State) (h : s.port? = some p) :
    s.onPort f = .next (f p) := by simp [State.onPort, h]

theorem State.port?_lt {s : State} {p : Port} (h : s.port? = some p) : s.cur < s.ports.length :=
  (List.getElem?_eq_some_iff.mp h).1

/-- The port an operation leaves behind is the one the next operation on the same port finds. -/
theorem State.port?_commit {s : State} {p : Port} (h : s.port? = some p) (q : Port) (o : Out) :
    (s.commit q o).port? = some q := by
  simp [State.port?, State.port?_lt h]

theorem State.port?_respond {s : State} {p : Port} (h : s.port? = some p) (q : Port) (rsp : RspWord)
    (reps : List Condition) : (s.respond q rsp reps).port? = some q := by
  simp [State.port?, State.port?_lt h]

/-- Writing back the port that was read changes nothing. -/
theorem State.ports_set_self {s : State} {p : Port} (h : s.port? = some p) : s.ports.set s.cur p = s.ports := by
  obtain ⟨hlt, rfl⟩ := List.getElem?_eq_some_iff.mp h
  exact List.set_getElem_self hlt

end Sys2Proof.Machine
end

