-- ==== Sys2Proof/Laws/Memory.lean ====
section
/-! SUPPORT. The laws of ring storage that the statements do not state: the canonical form is kept by every
ring operation, and what a byte or a bit reads as after a write. -/

namespace Sys2Proof.Machine

theorem Memory.mem_write {m : Memory} {k : Nat} {v : Byte} {c : Host.Cell} (h : c ∈ m.write k v) :
    c ∈ m ∨ (c = (k, v) ∧ v ≠ Memory.blank) := by
  induction m with
  | nil => simp only [Memory.write] at h; split at h <;> simp_all
  | cons x m ih =>
    obtain ⟨a, w⟩ := x
    simp only [Memory.write] at h
    split at h
    · split at h <;> simp_all [or_comm]
    · split at h
      · split at h <;> simp_all
        rcases h with h | h <;> simp [h]
      · rcases List.mem_cons.mp h with h | h
        · simp [h]
        · rcases ih h with h | h
          · exact .inl (List.mem_cons_of_mem _ h)
          · exact .inr h

/-- Every write keeps the canonical form. -/
theorem Memory.write_keeps_wf {m : Memory} (h : m.wf) (k : Nat) (v : Byte) : (m.write k v).wf := by
  refine ⟨?_, fun c hc => ?_⟩
  · obtain ⟨h, -⟩ := h
    induction m with
    | nil => simp only [Memory.write]; split <;> simp
    | cons x m ih =>
      obtain ⟨a, w⟩ := x
      rw [List.pairwise_cons] at h
      simp only [Memory.write]
      split
      · split
        · exact List.pairwise_cons.mpr h
        · refine List.pairwise_cons.mpr ⟨fun y hy => ?_, List.pairwise_cons.mpr h⟩
          rcases List.mem_cons.mp hy with rfl | hy
          · assumption
          · have := h.1 y hy; simp only at this ⊢; omega
      · split
        · split
          · exact h.2
          · refine List.pairwise_cons.mpr ⟨fun y hy => ?_, h.2⟩
            have := h.1 y hy; simp only at this ⊢; omega
        · refine List.pairwise_cons.mpr ⟨fun y hy => ?_, ih h.2⟩
          rcases Memory.mem_write hy with hy | ⟨rfl, -⟩
          · exact h.1 y hy
          · simp only; omega
  · rcases Memory.mem_write hc with hc | ⟨rfl, hv⟩
    · exact h.2 c hc
    · exact hv

/-- Every write inside the bounds keeps the bounds. -/
theorem Memory.write_keeps_below {m : Memory} {n k : Nat} (h : m.below n) (hk : k < n) (v : Byte) :
    (m.write k v).below n := by
  intro c hc
  rcases Memory.mem_write hc with hc | ⟨rfl, -⟩
  · exact h c hc
  · exact hk

theorem Memory.read_blank {m : Memory} {k : Nat} (h : ∀ c ∈ m, c.1 ≠ k) : m.read k = Memory.blank := by
  induction m with
  | nil => rfl
  | cons x m ih =>
    obtain ⟨a, w⟩ := x
    have ha : k ≠ a := fun e => h (a, w) (by simp) e.symm
    simp only [Memory.read, if_neg ha]
    exact ih fun c hc => h c (List.mem_cons_of_mem _ hc)

/-- Read after write, on storage in canonical form. -/
theorem Memory.read_write {m : Memory} (h : m.wf) (k j : Nat) (v : Byte) :
    (m.write k v).read j = if j = k then v else m.read j := by
  obtain ⟨h, -⟩ := h
  induction m with
  | nil => simp only [Memory.write]; split <;> simp_all [Memory.read]
  | cons x m ih =>
    obtain ⟨a, w⟩ := x
    rw [List.pairwise_cons] at h
    have hlt : ∀ b ≤ a, ∀ c ∈ m, c.1 ≠ b := fun b hb c hc => by have := h.1 c hc; simp only at this; omega
    simp only [Memory.write]
    split
    · rename_i hk
      have hb : Memory.read m k = Memory.blank := Memory.read_blank (hlt k (by omega))
      split
      · by_cases e : j = k
        · subst e; simp only [Memory.read, if_neg (show j ≠ a by omega), hb, if_pos]; simp_all
        · simp [e]
      · simp only [Memory.read]
    · split
      · rename_i hk
        subst hk
        split
        · by_cases e : j = k
          · subst e; simp_all [Memory.read_blank (hlt j (by omega))]
          · simp [Memory.read, e]
        · by_cases e : j = k <;> simp [Memory.read, e]
      · rename_i h1 h2
        simp only [Memory.read]
        by_cases e : j = a
        · subst e; simp [show j ≠ k by omega]
        · simp only [if_neg e]; exact ih h.2

theorem setBit_getLsbD (v : Byte) (k i : Nat) (b : Bool) (hi : i < 8) :
    (setBit v k b).getLsbD i = if i = k then b else v.getLsbD i := by
  unfold setBit
  by_cases e : i = k
  · subst e; cases b <;> simp [hi]
  · cases b
    · by_cases hk : i < k
      · simp [hi, e, hk]
      · have : ¬ (i - k = 0) := by omega
        simp [hi, e, this]
    · by_cases hk : i < k
      · simp [hi, e, hk]
      · have : ¬ (i - k = 0) := by omega
        simp [hi, e, this]

/-- BitWrite sets one flag and leaves every other (`00_scope.md` R7). -/
theorem Ring.bitRead_bitWrite {r : Ring} (h : r.bits.wf) (i j : Nat) (b : Bool) :
    (r.bitWrite i b).bitRead j = if j = i then b else r.bitRead j := by
  simp only [Ring.bitRead, Ring.bitWrite, Memory.read_write h]
  by_cases e : j / 8 = i / 8
  · rw [if_pos e, setBit_getLsbD _ _ _ _ (Nat.mod_lt _ (by omega)), e]
    by_cases e2 : j % 8 = i % 8
    · have : j = i := by omega
      simp [this]
    · have : j ≠ i := fun h => e2 (by rw [h])
      simp [this, e2]
  · have : j ≠ i := fun h => e (by rw [h])
    simp [e, this]

end Sys2Proof.Machine
end

