-- ==== Sys2Proof/Laws/Ring.lean ====
section
/-! SUPPORT. One lemma per ring primitive that says what it does to each field and that it keeps the ring's
shape. -/

namespace Sys2Proof.Machine

variable (n : Nat) (r : Ring) (byte : Byte) (ninth : Bool)

@[simp] theorem Ring.store_head : (r.store n byte ninth).head = (r.head + 1) % n := rfl
@[simp] theorem Ring.store_tail : (r.store n byte ninth).tail = r.tail := rfl
@[simp] theorem Ring.store_ovf : (r.store n byte ninth).ovf = r.ovf := rfl

@[simp] theorem Ring.clear_head : r.clear.head = 0 := rfl
@[simp] theorem Ring.clear_tail : r.clear.tail = 0 := rfl
@[simp] theorem Ring.clear_ovf : r.clear.ovf = false := rfl
@[simp] theorem Ring.clear_data : r.clear.data = r.data := rfl
@[simp] theorem Ring.clear_bits : r.clear.bits = r.bits := rfl

@[simp] theorem Ring.discard_head : r.discard.head = r.head := rfl
@[simp] theorem Ring.discard_tail : r.discard.tail = r.head := rfl
@[simp] theorem Ring.discard_ovf : r.discard.ovf = r.ovf := rfl
@[simp] theorem Ring.discard_data : r.discard.data = r.data := rfl
@[simp] theorem Ring.discard_bits : r.discard.bits = r.bits := rfl

variable {n r}

/-- What the slots of a ring read as after a PUSH that found room. -/
theorem Ring.store_slot (hd : r.data.wf) (hb : r.bits.wf) (byte : Byte) (ninth : Bool) (i : Nat) :
    (r.store n byte ninth).slot i = if i = r.head then (byte, ninth) else r.slot i := by
  have h1 : (r.store n byte ninth).data.read i = if i = r.head then byte else r.data.read i :=
    Memory.read_write hd _ _ _
  have h2 : (r.store n byte ninth).bitRead i = if i = r.head then ninth else r.bitRead i :=
    Ring.bitRead_bitWrite (r := { r with data := r.data.write r.head byte }) hb r.head i ninth
  simp only [Ring.slot, h1, h2]
  split <;> rfl

theorem Ring.push_full (h : r.full n = true) (byte : Byte) (ninth : Bool) :
    r.push n byte ninth = (false, { r with ovf := true }) := by simp [Ring.push, h]

theorem Ring.push_room (h : r.full n = false) (byte : Byte) (ninth : Bool) :
    r.push n byte ninth = (true, r.store n byte ninth) := by simp [Ring.push, h]

theorem Ring.pop_empty (h : r.empty = true) : r.pop n = (none, r) := by simp [Ring.pop, h]

theorem Ring.pop_some (h : r.empty = false) :
    r.pop n = (some (r.slot r.tail), { r with tail := (r.tail + 1) % n, ovf := false }) := by
  simp [Ring.pop, h]

theorem Ring.store_keeps_wf (h : r.wf n) (byte : Byte) (ninth : Bool) : (r.store n byte ninth).wf n := by
  obtain ⟨⟨hh, ht⟩, ⟨hd, hdb⟩, hb, hbb⟩ := h
  exact ⟨⟨Nat.mod_lt _ (by omega), ht⟩, ⟨Memory.write_keeps_wf hd _ _, Memory.write_keeps_below hdb hh _⟩,
    Memory.write_keeps_wf hb _ _, Memory.write_keeps_below hbb (by omega) _⟩

theorem Ring.push_keeps_wf (h : r.wf n) (byte : Byte) (ninth : Bool) : (r.push n byte ninth).2.wf n := by
  cases hf : r.full n
  · rw [Ring.push_room hf]; exact Ring.store_keeps_wf h _ _
  · rw [Ring.push_full hf]; exact h

theorem Ring.pop_keeps_wf (h : r.wf n) : (r.pop n).2.wf n := by
  cases he : r.empty
  · rw [Ring.pop_some he]
    obtain ⟨⟨hh, ht⟩, h⟩ := h
    exact ⟨⟨hh, Nat.mod_lt _ (by omega)⟩, h⟩
  · rw [Ring.pop_empty he]; exact h

theorem Ring.clear_keeps_wf (h : r.wf n) : r.clear.wf n := by
  obtain ⟨⟨hh, ht⟩, h⟩ := h
  exact ⟨⟨by simp only [Ring.clear]; omega, by simp only [Ring.clear]; omega⟩, h⟩

theorem Ring.discard_keeps_wf (h : r.wf n) : r.discard.wf n := by
  obtain ⟨⟨hh, ht⟩, h⟩ := h
  exact ⟨⟨hh, hh⟩, h⟩

theorem Ring.pushWithPop_keeps_wf (h : r.wf n) (byte : Byte) (ninth : Bool) :
    (r.pushWithPop n byte ninth).2.2.wf n := by
  obtain ⟨⟨hh', -⟩, hs⟩ := Ring.store_keeps_wf h byte ninth
  obtain ⟨⟨hh, ht⟩, h⟩ := h
  have hm : (r.tail + 1) % n < n := Nat.mod_lt _ (by omega)
  have ht' : (if r.empty then r.tail else (r.tail + 1) % n) < n := by split <;> assumption
  unfold Ring.pushWithPop
  cases r.full n
  · exact ⟨⟨hh', ht'⟩, hs⟩
  · exact ⟨⟨hh, ht'⟩, h⟩

end Sys2Proof.Machine
end

