-- ==== Sys2Proof/Laws/Exec.lean ====
section
/-! SUPPORT. What an operation can do to its port, said once: later proofs split `PortEffect` and never
unfold an operation. -/

namespace Sys2Proof.Machine

/-- `PortEffect c p i q`: operation `i` can take its port from `p` to `q` under the parameters `c`. -/
inductive PortEffect (c : Params) (p : Port) : Instr → Port → Prop where
  | same (i : Instr) : PortEffect c p i p
  | push (rb : RingSel) (ninth : Bool) (byte : Byte) :
      PortEffect c p (.push rb ninth byte) (p.setRing rb ((p.ring rb).push (ringSize c rb) byte ninth).2)
  | pop (rb : RingSel) : PortEffect c p (.pop rb) (p.setRing rb ((p.ring rb).pop (ringSize c rb)).2)
  | clear (rb : RingSel) : PortEffect c p (.clear rb) (p.setRing rb (p.ring rb).clear)
  | discard (rb : RingSel) : PortEffect c p (.discard rb) (p.setRing rb (p.ring rb).discard)
  | begun (rate : Nat) (line : Byte) (d : Nat) (u2x : Bool)
      (h : baudcalc c c.clockHz rate c.preferU2x = .ok d u2x) :
      PortEffect c p (.beginPort rate line) (p.restart.configure d u2x line)
  | failed (rate : Nat) (line : Byte) (h : baudcalc c c.clockHz rate c.preferU2x = .error) :
      PortEffect c p (.beginPort rate line) p.restart
  | ended (h : p.endReady = true) : PortEffect c p .endPort p.shutDown
  | received (h : p.pr.rxIrq = true) : PortEffect c p .rxi (p.receive c).2
  | transmitted (h : p.pr.txIrq = true) : PortEffect c p .txi (p.transmit c)
  | written (ninth : Bool) (byte : Byte) (hs : c.writeSplit = false) (h : p.writeReady c = true) :
      PortEffect c p (.write ninth byte) (p.enqueue c byte ninth).armTx.markTxing.clearTxc
  | enqueued (ninth : Bool) (byte : Byte) (hs : c.writeSplit = true) (h : p.writeReady c = true) :
      PortEffect c p (.write ninth byte) (p.enqueue c byte ninth)
  | armed (ninth : Bool) (byte : Byte) (hs : c.writeSplit = true) : PortEffect c p (.write ninth byte) p.armTx
  | marked (ninth : Bool) (byte : Byte) (hs : c.writeSplit = true) :
      PortEffect c p (.write ninth byte) p.markTxing
  | cleared (ninth : Bool) (byte : Byte) (hs : c.writeSplit = true) :
      PortEffect c p (.write ninth byte) p.clearTxc
  | flushed (h : p.flushReady = true) : PortEffect c p .flush { p with txing := false }
  | read : PortEffect c p .read { p with rx := (p.rx.pop c.nRx).2 }

/-- The part of the state no operation touches, and the effect on the current port. -/
abbrev ExecEffect (i : Instr) (s t : State) : Prop :=
  (t.cfg = s.cfg ∧ t.cur = s.cur ∧ t.app = s.app ∧ t.sched = s.sched) ∧
    (t.ports = s.ports ∨ ∃ p q, s.port? = some p ∧ t.ports = s.ports.set s.cur q ∧ PortEffect s.cfg p i q)

/-- Everything an operation that answers a next state can do. -/
theorem exec_effect {i : Instr} {s t : State} (h : exec i s = .next t) : ExecEffect i s t := by
  have key : ∀ {f : Port → State}, s.onPort f = .next t →
      (∀ p, s.port? = some p → ExecEffect i s (f p)) → ExecEffect i s t := fun hf hk => by
    obtain ⟨p, hp, rfl⟩ := State.onPort_next hf
    exact hk p hp
  have put : ∀ {p : Port} (q : Port) (o : Out), s.port? = some p → PortEffect s.cfg p i q →
      ExecEffect i s (s.commit q o) := fun q o hp he => ⟨⟨rfl, rfl, rfl, rfl⟩, .inr ⟨_, q, hp, rfl, he⟩⟩
  have answer : ∀ {p : Port} (q : Port) (r : RspWord) (l : List Condition), s.port? = some p →
      PortEffect s.cfg p i q → ExecEffect i s (s.respond q r l) :=
    fun q r l hp he => ⟨⟨rfl, rfl, rfl, rfl⟩, .inr ⟨_, q, hp, rfl, he⟩⟩
  have wait : ∀ (w : CmdWord) (ph : WPhase), ExecEffect i s (s.hold w ph) :=
    fun _ _ => ⟨⟨rfl, rfl, rfl, rfl⟩, .inl rfl⟩
  have idle : ExecEffect i s s.noStep := ⟨⟨rfl, rfl, rfl, rfl⟩, .inl rfl⟩
  cases i with
  | push rb ninth byte => exact key h fun p hp => put _ _ hp (.push rb ninth byte)
  | pop rb => exact key h fun p hp => put _ _ hp (.pop rb)
  | peek rb => exact key h fun p hp => put _ _ hp (.same _)
  | avail rb => exact key h fun p hp => put _ _ hp (.same _)
  | clear rb => exact key h fun p hp => put _ _ hp (.clear rb)
  | discard rb => exact key h fun p hp => put _ _ hp (.discard rb)
  | baudcalc clock rate prefer =>
    simp only [exec, execBaudcalc, Host.Outcome.next.injEq] at h
    subst h
    exact ⟨⟨rfl, rfl, rfl, rfl⟩, .inl rfl⟩
  | beginPort rate line =>
    refine key h fun p hp => ?_
    split
    · exact answer _ _ _ hp (.begun rate line _ _ ‹_›)
    · exact answer _ _ _ hp (.failed rate line ‹_›)
  | endPort =>
    refine key h fun p hp => ?_
    split
    · exact answer _ _ _ hp (.ended ‹_›)
    · exact wait _ _
  | rxi =>
    refine key h fun p hp => ?_
    split
    · exact put _ _ hp (.received ‹_›)
    · exact idle
  | txi =>
    refine key h fun p hp => ?_
    split
    · exact put _ _ hp (.transmitted ‹_›)
    · exact idle
  | write ninth byte =>
    refine key h fun p hp => ?_
    split
    · rename_i hs
      simp only [writeSplit]
      split
      · split
        · exact put _ {} hp (.enqueued ninth byte hs ‹_›)
        · exact wait _ _
      · exact put _ {} hp (.armed ninth byte hs)
      · exact put _ {} hp (.marked ninth byte hs)
      · exact answer _ _ _ hp (.cleared ninth byte hs)
    · rename_i hs
      simp only [writeAtomic]
      split
      · exact answer _ _ _ hp (.written ninth byte (by simpa using hs) ‹_›)
      · exact wait _ _
  | flush =>
    refine key h fun p hp => ?_
    split
    · exact answer _ _ _ hp (.flushed ‹_›)
    · exact wait _ _
  | read => exact key h fun p hp => answer _ _ _ hp .read
  | peekc => exact key h fun p hp => answer _ _ _ hp (.same _)
  | available => exact key h fun p hp => answer _ _ _ hp (.same _)
  | overflow => exact key h fun p hp => answer _ _ _ hp (.same _)

/-- How an operation leaves `PEND`: a ring operation, BAUDCALC or a handler leaves it as it was, a command
responds and completes, or one of the three guarded commands (`45_transport.md` R188) holds. Under
`WRITE_SPLIT` a WRITE moves on by one micro-step at a time and completes from W4 (R181). -/
inductive PendEffect (i : Instr) (s t : State) : Prop where
  | untouched (hi : ∀ w, encode i ≠ .cmd w) (hp : t.pend = s.pend) (hr : t.out.rsp = none)
  | completed (w : CmdWord) (hi : encode i = .cmd w) (hp : t.pend = none) (rsp : RspWord)
      (hr : t.out.rsp = some rsp)
      (hg : ∀ x b, i = .write x b → s.cfg.writeSplit = true → s.phaseOf w = .w4)
  | holds (w : CmdWord) (ph : WPhase) (hi : encode i = .cmd w) (hp : t.pend = some ⟨s.cur, w, ph⟩)
      (hr : t.out = {})
      (hg : (i = .endPort ∧ ph = .w1) ∨ (i = .flush ∧ ph = .w1) ∨
        ∃ x b, i = .write x b ∧
          ((s.cfg.writeSplit = false ∧ ph = .w1) ∨
            (s.cfg.writeSplit = true ∧
              ((s.phaseOf w = .w1 ∧ ph = .w1) ∨ (s.phaseOf w).next = some ph))))

theorem exec_pend {i : Instr} {s t : State} (h : exec i s = .next t) : PendEffect i s t := by
  have key : ∀ {f : Port → State}, s.onPort f = .next t → (∀ p, PendEffect i s (f p)) → PendEffect i s t :=
    fun hf hk => by
      obtain ⟨p, -, rfl⟩ := State.onPort_next hf
      exact hk p
  cases i with
  | push rb ninth byte => exact key h fun p => .untouched nofun rfl rfl
  | pop rb => exact key h fun p => .untouched nofun rfl rfl
  | peek rb => exact key h fun p => .untouched nofun rfl rfl
  | avail rb => exact key h fun p => .untouched nofun rfl rfl
  | clear rb => exact key h fun p => .untouched nofun rfl rfl
  | discard rb => exact key h fun p => .untouched nofun rfl rfl
  | baudcalc clock rate prefer =>
    simp only [exec, execBaudcalc, Host.Outcome.next.injEq] at h
    subst h
    exact .untouched nofun rfl rfl
  | beginPort rate line => exact key h fun p => by split <;> exact .completed _ rfl rfl _ rfl nofun
  | endPort =>
    refine key h fun p => ?_
    split
    · exact .completed _ rfl rfl _ rfl nofun
    · exact .holds _ _ rfl rfl rfl (.inl ⟨rfl, rfl⟩)
  | rxi => exact key h fun p => by split <;> exact .untouched nofun rfl rfl
  | txi => exact key h fun p => by split <;> exact .untouched nofun rfl rfl
  | write ninth byte =>
    refine key h fun p => ?_
    split
    · rename_i hs
      have onward : ∀ q ph, (s.phaseOf (writeWord ninth byte)).next = some ph →
          PendEffect (.write ninth byte) s ((s.commit q {}).hold (writeWord ninth byte) ph) :=
        fun _ _ hn => .holds _ _ rfl rfl rfl (.inr (.inr ⟨_, _, rfl, .inr ⟨hs, .inr hn⟩⟩))
      simp only [writeSplit]
      split <;> rename_i hph
      · split
        · exact onward _ _ (by rw [hph]; rfl)
        · exact .holds _ _ rfl rfl rfl (.inr (.inr ⟨_, _, rfl, .inr ⟨hs, .inl ⟨hph, rfl⟩⟩⟩))
      · exact onward _ _ (by rw [hph]; rfl)
      · exact onward _ _ (by rw [hph]; rfl)
      · exact .completed _ rfl rfl _ rfl fun _ _ _ _ => hph
    · rename_i hs
      simp only [writeAtomic]
      split
      · exact .completed _ rfl rfl _ rfl fun _ _ _ h => absurd h hs
      · exact .holds _ _ rfl rfl rfl (.inr (.inr ⟨_, _, rfl, .inl ⟨by simpa using hs, rfl⟩⟩))
  | flush =>
    refine key h fun p => ?_
    split
    · exact .completed _ rfl rfl _ rfl nofun
    · exact .holds _ _ rfl rfl rfl (.inr (.inl ⟨rfl, rfl⟩))
  | read => exact key h fun p => .completed _ rfl rfl _ rfl nofun
  | peekc => exact key h fun p => .completed _ rfl rfl _ rfl nofun
  | available => exact key h fun p => .completed _ rfl rfl _ rfl nofun
  | overflow => exact key h fun p => .completed _ rfl rfl _ rfl nofun

theorem Port.setRing_keeps_wf {c : Params} {p : Port} (h : p.wf c) {rb : RingSel} {r : Ring}
    (hr : r.wf (ringSize c rb)) : (p.setRing rb r).wf c := by
  cases rb
  · exact ⟨hr, h.2⟩
  · exact ⟨h.1, hr⟩

theorem Port.ring_wf {c : Params} {p : Port} (h : p.wf c) (rb : RingSel) :
    (p.ring rb).wf (ringSize c rb) := by
  cases rb
  · exact h.1
  · exact h.2

theorem Port.receive_keeps_wf {c : Params} {p : Port} (h : p.wf c) : (p.receive c).2.wf c := by
  simp only [Port.receive]
  split
  · exact h
  · exact ⟨Ring.push_keeps_wf h.1 _ _, h.2⟩

theorem Port.transmit_keeps_wf {c : Params} {p : Port} (h : p.wf c) : (p.transmit c).wf c := by
  have hp := Ring.pop_keeps_wf h.2
  unfold Port.transmit
  split
  · exact h
  · rename_i heq
    rw [heq] at hp
    exact ⟨h.1, hp⟩

/-- Every effect of an operation keeps both rings well-formed. -/
theorem PortEffect.keeps_wf {c : Params} {p q : Port} {i : Instr} (e : PortEffect c p i q) (h : p.wf c) :
    q.wf c := by
  cases e with
  | same => exact h
  | push rb ninth byte => exact Port.setRing_keeps_wf h (Ring.push_keeps_wf (Port.ring_wf h rb) _ _)
  | pop rb => exact Port.setRing_keeps_wf h (Ring.pop_keeps_wf (Port.ring_wf h rb))
  | clear rb => exact Port.setRing_keeps_wf h (Ring.clear_keeps_wf (Port.ring_wf h rb))
  | discard rb => exact Port.setRing_keeps_wf h (Ring.discard_keeps_wf (Port.ring_wf h rb))
  | begun => exact ⟨Ring.clear_keeps_wf h.1, Ring.clear_keeps_wf h.2⟩
  | failed => exact ⟨Ring.clear_keeps_wf h.1, Ring.clear_keeps_wf h.2⟩
  | ended => exact ⟨Ring.discard_keeps_wf h.1, h.2⟩
  | received => exact Port.receive_keeps_wf h
  | transmitted => exact Port.transmit_keeps_wf h
  | written => exact ⟨h.1, Ring.push_keeps_wf h.2 _ _⟩
  | enqueued => exact ⟨h.1, Ring.push_keeps_wf h.2 _ _⟩
  | armed => exact h
  | marked => exact h
  | cleared => exact h
  | flushed => exact h
  | read => exact ⟨Ring.pop_keeps_wf h.1, h.2⟩

/-- PERIPH touches no ring. -/
theorem Port.periph_rings (p : Port) (a : PeriphAct) :
    (p.periph a).rx = p.rx ∧ (p.periph a).tx = p.tx ∧ (p.periph a).nine = p.nine ∧
      (p.periph a).txing = p.txing := by
  cases a <;> simp only [Port.periph] <;> (try split) <;> simp

end Sys2Proof.Machine
end

