-- ==== Sys2Proof/Laws/PerInstr.lean ====
section
/-! SUPPORT. What is said of every operation as syntax, one lemma per constructor. -/

namespace Sys2Proof.Laws

/-- `i` has a request in the row of `30_encoding.md` R74 with this mask and match, on the command port. -/
def onCmdRow (i : Instr) (mask val : CmdWord) : Prop := ∃ w, encode i = .cmd w ∧ w &&& mask = val

/-- The same on the request port of ring `rb`. -/
def onRopRow (i : Instr) (rb : RingSel) (mask val : RopWord) : Prop :=
  ∃ w, encode i = .ring rb w ∧ w &&& mask = val

/-- The same on the event lines. -/
def onEventRow (i : Instr) (mask val : EventWord) : Prop := ∃ w, encode i = .event w ∧ w &&& mask = val

namespace EncodeMatchesTable

/-- The encoding of an operation stands in its own row of the opcode table, whatever its operands. -/
def Statement (i : Instr) : Prop :=
  match i with
  | .push rb _ _ => onRopRow i rb 0xE00#12 0x200#12
  | .pop rb => onRopRow i rb 0xFFF#12 0x400#12
  | .peek rb => onRopRow i rb 0xFFF#12 0x600#12
  | .avail rb => onRopRow i rb 0xFFF#12 0x800#12
  | .clear rb => onRopRow i rb 0xFFF#12 0xA00#12
  | .discard rb => onRopRow i rb 0xFFF#12 0xC00#12
  | .baudcalc clock rate prefer => encode i = .func clock rate prefer
  | .beginPort _ _ => onCmdRow i 0xFF0000000000#48 0x100000000000#48
  | .endPort => onCmdRow i 0xFFFFFFFFFFFF#48 0x200000000000#48
  | .rxi => onEventRow i 0b01#2 0b01#2
  | .txi => onEventRow i 0b10#2 0b10#2
  | .write _ _ => onCmdRow i 0xFFFFFFFFFE00#48 0x300000000000#48
  | .flush => onCmdRow i 0xFFFFFFFFFFFF#48 0x400000000000#48
  | .read => onCmdRow i 0xFFFFFFFFFFFF#48 0x500000000000#48
  | .peekc => onCmdRow i 0xFFFFFFFFFFFF#48 0x600000000000#48
  | .available => onCmdRow i 0xFFFFFFFFFFFF#48 0x700000000000#48
  | .overflow => onCmdRow i 0xFFFFFFFFFFFF#48 0x800000000000#48

theorem push (rb : RingSel) (ninth : Bool) (byte : Byte) : Statement (.push rb ninth byte) :=
  ⟨_, rfl, beq_iff_eq.mp ((selects_push _).mpr (ropWord_fields _ _ _).1)⟩
theorem pop (rb : RingSel) : Statement (.pop rb) := ⟨_, rfl, by decide⟩
theorem peek (rb : RingSel) : Statement (.peek rb) := ⟨_, rfl, by decide⟩
theorem avail (rb : RingSel) : Statement (.avail rb) := ⟨_, rfl, by decide⟩
theorem clear (rb : RingSel) : Statement (.clear rb) := ⟨_, rfl, by decide⟩
theorem discard (rb : RingSel) : Statement (.discard rb) := ⟨_, rfl, by decide⟩
theorem baudcalc (clock rate : Nat) (prefer : Bool) : Statement (.baudcalc clock rate prefer) := rfl
theorem beginPort (rate : Nat) (line : Byte) : Statement (.beginPort rate line) :=
  ⟨_, rfl, beq_iff_eq.mp ((selects_begin _).mpr (beginWord_fields _ _).1)⟩
theorem endPort : Statement .endPort := ⟨_, rfl, by decide⟩
theorem rxi : Statement .rxi := ⟨_, rfl, by decide⟩
theorem txi : Statement .txi := ⟨_, rfl, by decide⟩
theorem write (ninth : Bool) (byte : Byte) : Statement (.write ninth byte) :=
  ⟨_, rfl, beq_iff_eq.mp ((selects_write _).mpr (writeWord_fields _ _).1)⟩
theorem flush : Statement .flush := ⟨_, rfl, by decide⟩
theorem read : Statement .read := ⟨_, rfl, by decide⟩
theorem peekc : Statement .peekc := ⟨_, rfl, by decide⟩
theorem available : Statement .available := ⟨_, rfl, by decide⟩
theorem overflow : Statement .overflow := ⟨_, rfl, by decide⟩

end EncodeMatchesTable
end Sys2Proof.Laws
end

