-- ==== Sys2Proof/Laws/Queue.lean ====
section
/-! SUPPORT. A ring as the list of the bytes it holds: what one PUSH and one POP do to that list. -/

namespace Sys2Proof.Machine

theorem Ring.full_true {n : Nat} {r : Ring} : r.full n = true ↔ (r.head + 1) % n = r.tail := by simp [Ring.full]
theorem Ring.full_false {n : Nat} {r : Ring} : r.full n = false ↔ (r.head + 1) % n ≠ r.tail := by
  simp [Ring.full]
theorem Ring.empty_true {r : Ring} : r.empty = true ↔ r.head = r.tail := by simp [Ring.empty]
theorem Ring.empty_false {r : Ring} : r.empty = false ↔ r.head ≠ r.tail := by simp [Ring.empty]

/-- The occupancy without the reduction, on indices inside the ring. -/
theorem Ring.occ_eq {n : Nat} {r : Ring} (hh : r.head < n) (ht : r.tail < n) :
    r.occ n = if r.tail ≤ r.head then r.head - r.tail else n + r.head - r.tail := by
  unfold Ring.occ
  split
  · have : n + r.head - r.tail = n + (r.head - r.tail) := by omega
    rw [this, Nat.add_mod_left, Nat.mod_eq_of_lt (by omega)]
  · rw [Nat.mod_eq_of_lt (by omega)]

/-- The step of an index, without the reduction. -/
theorem Ring.next_index {n a : Nat} (h : a < n) : (a + 1) % n = if a + 1 = n then 0 else a + 1 := by
  split
  · rename_i e; rw [e, Nat.mod_self]
  · rw [Nat.mod_eq_of_lt (by omega)]

/-- A PUSH that finds room appends to the bytes held. -/
theorem Ring.held_store {n : Nat} {r : Ring} (h : r.wf n) (hf : r.full n = false) (byte : Byte) (ninth : Bool) :
    (r.store n byte ninth).held n = r.held n ++ [(byte, ninth)] := by
  obtain ⟨⟨hh, ht⟩, ⟨hd, -⟩, hb, -⟩ := h
  have hf := Ring.full_false.mp hf
  rw [Ring.next_index hh] at hf
  have ho : (r.store n byte ninth).occ n = r.occ n + 1 := by
    rw [Ring.occ_eq (r := r.store n byte ninth) (by simp; exact Nat.mod_lt _ (by omega)) ht,
      Ring.occ_eq hh ht]
    simp only [Ring.store_head, Ring.store_tail, Ring.next_index hh]
    split at hf <;> split <;> split <;> (try split) <;> omega
  unfold Ring.held
  rw [ho, List.range_succ, List.map_append]
  have hlast : (r.tail + r.occ n) % n = r.head := by
    rw [Ring.occ_eq hh ht]; split
    · rw [Nat.mod_eq_of_lt] <;> omega
    · have : r.tail + (n + r.head - r.tail) = n + r.head := by omega
      rw [this, Nat.add_mod_left, Nat.mod_eq_of_lt hh]
  congr 1
  · apply List.map_congr_left
    intro k hk
    rw [List.mem_range] at hk
    rw [Ring.store_slot hd hb, Ring.store_tail, if_neg]
    rw [Ring.occ_eq hh ht] at hk
    intro e
    rw [← hlast] at e
    have h2 : (r.tail + k) % n = (r.tail + r.occ n) % n := e
    rw [Ring.occ_eq hh ht] at h2
    split at hk <;> simp_all
    · have a1 : r.tail + k < n := by omega
      rw [Nat.mod_eq_of_lt a1] at h2
      omega
    · rename_i h3
      by_cases c : r.tail + k < n
      · rw [Nat.mod_eq_of_lt c] at h2; omega
      · have : r.tail + k = n + (r.tail + k - n) := by omega
        rw [this, Nat.add_mod_left, Nat.mod_eq_of_lt (by omega)] at h2
        omega
  · simp only [List.map_cons, List.map_nil, Ring.store_tail, hlast]
    rw [Ring.store_slot hd hb]; simp

/-- A POP of a ring that is not empty takes the first of the bytes held, whatever it does to the flag. -/
theorem Ring.held_cons {n : Nat} {r : Ring} (hh : r.head < n) (ht : r.tail < n) (he : r.empty = false) (o : Bool) :
    r.held n = r.slot r.tail :: Ring.held n { r with tail := (r.tail + 1) % n, ovf := o } := by
  have he := Ring.empty_false.mp he
  have ho : r.occ n = Ring.occ n { r with tail := (r.tail + 1) % n, ovf := o } + 1 := by
    rw [Ring.occ_eq (r := { r with tail := (r.tail + 1) % n, ovf := o }) hh (Nat.mod_lt _ (by omega)),
      Ring.occ_eq hh ht]
    simp only [Ring.next_index ht]
    split <;> split <;> split <;> omega
  unfold Ring.held
  rw [ho, List.range_succ_eq_map, List.map_cons, List.map_map]
  congr 1
  · simp [Nat.mod_eq_of_lt ht]
  · apply List.map_congr_left
    intro k hk
    simp only [Function.comp, Nat.succ_eq_add_one, Ring.slot, Ring.bitRead]
    have : (r.tail + (k + 1)) % n = ((r.tail + 1) % n + k) % n := by
      rw [Nat.mod_add_mod]; congr 1; omega
    rw [this]

theorem Ring.held_nil {n : Nat} {r : Ring} (hh : r.head < n) (ht : r.tail < n) (he : r.empty = true) :
    r.held n = [] := by
  have : r.occ n = 0 := by rw [Ring.occ_eq hh ht]; rw [Ring.empty_true] at he; simp [he]
  simp [Ring.held, this]

end Sys2Proof.Machine
end

