-- ==== Sys2Proof/Laws/Step.lean ====
section
/-! SUPPORT. What one step of the machine can do, said once: later proofs split `StepKind` and never unfold
the step. -/

namespace Sys2Proof.Machine

/-- Where the operation `i` that a move runs came from, and what the move took from the application. -/
inductive Source (s : State) : Move → Instr → State → Prop where
  | held (q : Pending) (i : Instr) (s0 : State) (hp : s.pend = some q) (hc : s0.cur = q.port)
      (ha : s0.app = s.app) (hd : decode (.cmd q.word) = .ok i) : Source s .main i s0
  | presented (c : AppCmd) (i : Instr) (s0 : State) (hp : s.pend = none) (hc : s0.cur = c.port)
      (ha : s.app = c :: s0.app) (hd : decode (.cmd c.word) = .ok i) : Source s .main i s0
  | rxi (s0 : State) (ha : s0.app = s.app) : Source s (.rxi s0.cur) .rxi s0
  | txi (s0 : State) (ha : s0.app = s.app) : Source s (.txi s0.cur) .txi s0
  | ring (rb : RingSel) (w : RopWord) (i : Instr) (s0 : State) (ha : s0.app = s.app)
      (hd : decode (.ring rb w) = .ok i) : Source s (.ring s0.cur rb w) i s0
  | func (clock rate : Nat) (prefer : Bool) (s0 : State) (ha : s0.app = s.app) (hc : s0.cur = s.cur) :
      Source s (.func clock rate prefer) (.baudcalc clock rate prefer) s0

/-- Everything a step that answers a next state can be: idle with an empty schedule, an operation of its
source, an ILLEGAL answer, a move with nothing to do, PERIPH, or the same-instant move of R61. -/
inductive StepKind (s t : State) : Prop where
  | idle (hs : s.sched = []) (e : t = s)
  | runs (m : Move) (rest : List Move) (i : Instr) (s0 : State) (hs : s.sched = m :: rest)
      (h0 : s0.cfg = s.cfg ∧ s0.ports = s.ports ∧ s0.sched = rest ∧ s0.pend = s.pend ∧ s0.out = {})
      (src : Source s m i s0) (h : exec i s0 = .next t)
  | illegal (rest : List Move) (w : CmdWord) (r : Reject) (s0 : State) (p : Port)
      (hs : s.sched = .main :: rest)
      (h0 : s0.cfg = s.cfg ∧ s0.ports = s.ports ∧ s0.sched = rest ∧ s0.pend = s.pend)
      (hd : decode (.cmd w) = .error r)
      (hw : (∃ q, s.pend = some q ∧ w = q.word ∧ s0.cur = q.port ∧ s0.app = s.app) ∨
        (s.pend = none ∧ s.app = ⟨s0.cur, w⟩ :: s0.app))
      (hp : s0.port? = some p) (e : t = s0.respond p (rspWord .illegal 0#16) [.illegalCommand w])
  | still (m : Move) (rest : List Move) (s0 : State) (hs : s.sched = m :: rest)
      (h0 : s0.cfg = s.cfg ∧ s0.ports = s.ports ∧ s0.sched = rest ∧ s0.pend = s.pend ∧ s0.app = s.app)
      (hm : (m = .main ∧ s.pend = none ∧ s0.cur = s.cur) ∨ (m ≠ .main ∧ ∃ p, s0.port? = some p))
      (e : t = s0.noStep)
  | periph (k : Nat) (a : PeriphAct) (rest : List Move) (p : Port) (hs : s.sched = .periph k a :: rest)
      (hp : s.ports[k]? = some p)
      (e : t = { s with sched := rest, cur := k, out := {}, ports := s.ports.set k (p.periph a) })
  | sameInstant (k : Nat) (w : CmdWord) (rest : List Move) (cs : List AppCmd) (p : Port)
      (hs : s.sched = .rxiWithRead k :: rest) (hpend : s.pend = none) (ha : s.app = ⟨k, w⟩ :: cs)
      (hp : s.ports[k]? = some p) (hi : p.pr.rxIrq = true) (hd : decode (.cmd w) = .ok .read)
      (e : t = rxiWithRead { s with sched := rest, cur := k, out := {}, app := cs } p)

theorem step_kind {s t : State} (h : step s = .next t) : StepKind s t := by
  simp only [step, stepSched] at h
  split at h
  · cases h; exact .idle ‹_› rfl
  · rename_i m rest hs
    cases m with
    | main =>
      simp only [stepMove, stepMain] at h
      split at h
      · rename_i q hq
        unfold runCommand at h
        split at h
        · rename_i i hi
          exact .runs _ _ i { s with sched := rest, out := {}, cur := q.port } hs ⟨rfl, rfl, rfl, rfl, rfl⟩
            (.held q i { s with sched := rest, out := {}, cur := q.port } hq rfl rfl hi) h
        · rename_i e he
          obtain ⟨p, hp, rfl⟩ := State.onPort_next h
          exact .illegal _ _ e { s with sched := rest, out := {}, cur := q.port } p hs ⟨rfl, rfl, rfl, rfl⟩ he
            (.inl ⟨q, hq, rfl, rfl, rfl⟩) hp rfl
      · rename_i hq
        split at h
        · rename_i c cs hc
          unfold runCommand at h
          split at h
          · rename_i i hi
            exact .runs _ _ i { s with sched := rest, out := {}, cur := c.port, app := cs } hs
              ⟨rfl, rfl, rfl, rfl, rfl⟩
              (.presented c i { s with sched := rest, out := {}, cur := c.port, app := cs } hq rfl hc hi) h
          · rename_i e he
            obtain ⟨p, hp, rfl⟩ := State.onPort_next h
            exact .illegal _ _ e { s with sched := rest, out := {}, cur := c.port, app := cs } p hs
              ⟨rfl, rfl, rfl, rfl⟩ he (.inr ⟨hq, hc⟩) hp rfl
        · cases h
          exact .still _ _ { s with sched := rest, out := {} } hs ⟨rfl, rfl, rfl, rfl, rfl⟩
            (.inl ⟨rfl, hq, rfl⟩) rfl
    | rxi k =>
      exact .runs _ _ .rxi { s with sched := rest, out := {}, cur := k } hs ⟨rfl, rfl, rfl, rfl, rfl⟩
        (.rxi { s with sched := rest, out := {}, cur := k } rfl) h
    | txi k =>
      exact .runs _ _ .txi { s with sched := rest, out := {}, cur := k } hs ⟨rfl, rfl, rfl, rfl, rfl⟩
        (.txi { s with sched := rest, out := {}, cur := k } rfl) h
    | periph k a =>
      obtain ⟨p, hp, rfl⟩ := State.onPort_next h
      exact .periph k a _ p hs hp rfl
    | rxiWithRead k =>
      obtain ⟨p, hp, rfl⟩ := State.onPort_next h
      split
      · rename_i c cs hq ha
        split
        · rename_i hh
          obtain ⟨h1, h2, h3⟩ := hh
          obtain ⟨cp, cw⟩ := c
          simp only at h1 hq ha
          subst h1
          exact .sameInstant _ cw _ cs p hs hq ha hp h3 h2 rfl
        · exact .still _ _ { s with sched := rest, out := {}, cur := k } hs ⟨rfl, rfl, rfl, rfl, rfl⟩
            (.inr ⟨nofun, p, hp⟩) rfl
      · exact .still _ _ { s with sched := rest, out := {}, cur := k } hs ⟨rfl, rfl, rfl, rfl, rfl⟩
            (.inr ⟨nofun, p, hp⟩) rfl
    | ring k rb w =>
      simp only [stepMove, stepRing] at h
      split at h
      · rename_i i hi
        exact .runs _ _ i { s with sched := rest, out := {}, cur := k } hs ⟨rfl, rfl, rfl, rfl, rfl⟩
          (.ring rb w i { s with sched := rest, out := {}, cur := k } rfl hi) h
      · obtain ⟨p, hp, rfl⟩ := State.onPort_next h
        exact .still _ _ { s with sched := rest, out := {}, cur := k } hs ⟨rfl, rfl, rfl, rfl, rfl⟩
            (.inr ⟨nofun, p, hp⟩) rfl
      · cases h
    | func c r p =>
      exact .runs _ _ _ { s with sched := rest, out := {} } hs ⟨rfl, rfl, rfl, rfl, rfl⟩
        (.func c r p { s with sched := rest, out := {} } rfl rfl) h

end Sys2Proof.Machine
end

