-- ==== Sys2Proof/Tests/Slice0.lean ====
section
/-! SUPPORT. The model's own tests. Every expected value is from `95_test_vectors.md` (cited as V<n>) or is
written out from the rule named; the last part shows for every obligation with hypotheses an input that
meets them. -/

namespace Sys2Proof.Tests

open Sys2Proof Sys2Proof.Machine

/-! ### Helpers -/

/-- The next state an outcome answers, if it answers one. -/
def after (o : Host.Outcome State Fault Refusal) : Option State :=
  match o with
  | .next t => some t
  | .fault _ => none
  | .refused _ => none

/-- The port a small test leaves, and the outputs of its step. -/
def left (o : Host.Outcome State Fault Refusal) : Option (Port × Out) :=
  match after o with
  | some t => t.port?.map fun p => (p, t.out)
  | none => none

/-- The port right after reset. -/
def fresh : Port := Port.reset PowerOn.named

/-- The machine of `95_test_vectors.md` with its one port in the given state. -/
def on (p : Port) : State := { State.reset with ports := [p] }

/-- A ring with nothing stored. -/
def bare (head tail : Nat) (ovf : Bool) : Ring := { data := [], bits := [], head := head, tail := tail, ovf := ovf }

/-- The ring of vector V3: A0 to A3 stored, `head = 0`, `tail = 1`, full. -/
def lapped (ovf : Bool) : Ring :=
  { data := [(0, 0xA0#8), (1, 0xA1#8), (2, 0xA2#8), (3, 0xA3#8)], bits := [(0, 0x0A#8)], head := 0, tail := 1, ovf := ovf }

/-! ### Well-formedness: the ill-formed terms -/

theorem test_wf_baudcalc_clock_zero : (Instr.baudcalc 0 9600 true).wf = false := by decide
theorem test_wf_baudcalc_rate_too_wide : (Instr.baudcalc 1 4294967296 true).wf = false := by decide
theorem test_wf_begin_rate_too_wide : (Instr.beginPort 4294967296 0x06#8).wf = false := by decide
theorem test_wf_begin_largest_rate : (Instr.beginPort 4294967295 0xFF#8).wf = true := by decide

/-! ### Decoding: words written out from `30_encoding.md` R71, R74, R77 -/

theorem test_decode_push : decode (.ring .tx 0b001_1_01000001#12) = .ok (.push .tx true 0x41#8) := by decide
theorem test_decode_pop : decode (.ring .rx 0b010_0_00000000#12) = .ok (.pop .rx) := by decide
theorem test_decode_peek : decode (.ring .tx 0b011_0_00000000#12) = .ok (.peek .tx) := by decide
theorem test_decode_avail : decode (.ring .rx 0b100_0_00000000#12) = .ok (.avail .rx) := by decide
theorem test_decode_clear : decode (.ring .rx 0b101_0_00000000#12) = .ok (.clear .rx) := by decide
theorem test_decode_discard : decode (.ring .rx 0b110_0_00000000#12) = .ok (.discard .rx) := by decide
theorem test_decode_baudcalc : decode (.func 16000000 9600 true) = .ok (.baudcalc 16000000 9600 true) := by decide
theorem test_decode_begin : decode (.cmd 0x100700002580#48) = .ok (.beginPort 9600 0x07#8) := by decide
theorem test_decode_end : decode (.cmd 0x200000000000#48) = .ok .endPort := by decide
theorem test_decode_rxi : decode (.event 0b01#2) = .ok .rxi := by decide
theorem test_decode_txi : decode (.event 0b10#2) = .ok .txi := by decide
theorem test_decode_write : decode (.cmd 0x3000000001FF#48) = .ok (.write true 0xFF#8) := by decide
theorem test_decode_flush : decode (.cmd 0x400000000000#48) = .ok .flush := by decide
theorem test_decode_read : decode (.cmd 0x500000000000#48) = .ok .read := by decide
theorem test_decode_peekc : decode (.cmd 0x600000000000#48) = .ok .peekc := by decide
theorem test_decode_available : decode (.cmd 0x700000000000#48) = .ok .available := by decide
theorem test_decode_overflow : decode (.cmd 0x800000000000#48) = .ok .overflow := by decide

/-- The reserved words of `95_test_vectors.md` section 2.2, and the ROP and EVENT values of R75. -/
theorem test_decode_reserved :
    decode (.cmd 0x200000000001#48) = .error .mustBeZero ∧ decode (.cmd 0x300000000241#48) = .error .mustBeZero ∧
    decode (.cmd 0x300100000041#48) = .error .mustBeZero ∧ decode (.cmd 0x000000000000#48) = .error .reservedOp ∧
    decode (.cmd 0xF00000000000#48) = .error .reservedOp ∧ decode (.ring .rx 0x000#12) = .error .ropIdle ∧
    decode (.ring .rx 0xE00#12) = .error .ropReserved ∧ decode (.ring .rx 0x401#12) = .error .ropReserved ∧
    decode (.event 0b00#2) = .error .noEvent := by decide

/-- Each row of the table, as its word, is what the next step after reset runs. -/
theorem test_rows_run_after_reset :
    (∀ x ∈ [(16, 0x200), (16, 0x400), (16, 0x600), (16, 0x800), (16, 0xA00), (16, 0xC00), (0, 0),
            (48, 0x100000000000), (48, 0x200000000000), (8, 1), (8, 2), (48, 0x300000000000),
            (48, 0x400000000000), (48, 0x500000000000), (48, 0x600000000000), (48, 0x700000000000),
            (48, 0x800000000000)],
      (decodeTableWord x.1 x.2).isSome = true ∧ (after (step (State.reset.withFetchWord x.1 x.2))).isSome = true) := by
  decide

/-! ### One step each -/

/-- V1 row 1. -/
theorem test_push_stores : (left (exec (.push .rx false 0xA0#8) (on fresh))).map (fun x => (x.1.rx, x.2.ring)) =
    some ({ data := [(0, 0xA0#8)], bits := [], head := 1, tail := 0, ovf := false }, some .stored) := by decide

/-- V3 row 1: the byte is dropped, only the flag changes. -/
theorem test_push_overflows :
    (left (exec (.push .rx true 0xEE#8) (on { fresh with rx := lapped false }))).map (fun x => (x.1.rx, x.2)) =
    some (lapped true, { ring := some .overflow, reports := [.bufferOverflow .rx] }) := by decide

/-- V3 row 5. -/
theorem test_pop_clears_overflow :
    (left (exec (.pop .tx) (on { fresh with tx := lapped true }))).map (fun x => (x.1.tx.tail, x.1.tx.ovf, x.2.ring)) =
    some (2, false, some (.got 0xA1#8 true)) := by decide

/-- V4 third row: an empty POP leaves the flag. -/
theorem test_pop_empty_keeps_overflow :
    (left (exec (.pop .rx) (on { fresh with rx := bare 0 0 true }))).map (fun x => (x.1.rx, x.2.ring)) =
    some (bare 0 0 true, some .empty) := by decide

/-- V3 row 3. -/
theorem test_peek_writes_nothing :
    (left (exec (.peek .rx) (on { fresh with rx := lapped true }))).map (fun x => (x.1.rx, x.2.ring)) =
    some (lapped true, some (.got 0xA1#8 true)) := by decide

/-- V1 row 6: `(4 + 0 - 1) mod 4`. -/
theorem test_avail_wraps : (left (exec (.avail .tx) (on { fresh with tx := lapped false }))).map (fun x => x.2.ring) =
    some (some (.count 3)) := by decide

/-- V4 first row. -/
theorem test_clear : (left (exec (.clear .tx) (on { fresh with tx := bare 3 1 true }))).map (fun x => x.1.tx) =
    some (bare 0 0 false) := by decide

/-- V4 second row: empty with the flag still set. -/
theorem test_discard : (left (exec (.discard .rx) (on { fresh with rx := bare 0 1 true }))).map (fun x => x.1.rx) =
    some (bare 0 0 true) := by decide

/-- `95_test_vectors.md` section 3: 976 falls back to normal speed, just above the limit. -/
theorem test_baudcalc_fallback : baudcalc Params.vectors 16000000 976 true = .ok 2048 false := by decide +kernel

/-- `95_test_vectors.md` section 3, corners (c) and (b): the tie rounds up, one more is an error. -/
theorem test_baudcalc_tie : baudcalc Params.vectors 16000000 8000000 true = .ok 0 true ∧
    baudcalc Params.vectors 16000000 8000001 true = .error := by decide +kernel

/-- The start of V8 and V9. -/
def dirty : Port :=
  { fresh with rx := bare 3 1 true, tx := bare 2 2 false, txing := true, pr := { fresh.pr with txie := true, txc := true } }

/-- V8. -/
theorem test_begin_dirty_port :
    (left (exec (.beginPort 9600 0x07#8) (on dirty))).map (fun x => (x.1, x.2.rsp)) =
    some ({ dirty with
      rx := bare 0 0 false, tx := bare 0 0 false, txing := false, nine := true
      pr := { dirty.pr with u2x := true, brh := 0x01#8, brl := 0xA0#8, line := 0x07#8, rxen := true, txen := true,
                            rxie := true, txie := false } }, some 0x00000#18) := by decide

/-- V9. -/
theorem test_begin_fails :
    (left (exec (.beginPort 300 0x07#8) (on dirty))).map (fun x => (x.1, x.2)) =
    some ({ dirty with rx := bare 0 0 false, tx := bare 0 0 false, txing := false },
      { rsp := some 0x20000#18, reports := [.baudUnsatisfiable 300] }) := by decide

/-- V10: the flag and `TXING` stay. -/
theorem test_end :
    (left (exec .endPort (on { dirty with pr := { dirty.pr with rxen := true, txen := true, rxie := true } }))).map
      (fun x => (x.1, x.2.rsp)) =
    some ({ dirty with rx := bare 3 3 true, pr := { dirty.pr with txie := false } }, some 0x00000#18) := by decide

/-- V10, second half: END holds while a byte is in `TX`. -/
theorem test_end_holds : (after (exec .endPort (on { fresh with tx := bare 2 1 false }))).map (fun t => (t.pend, t.out)) =
    some (some ⟨0, 0x200000000000#48, .w1⟩, {}) := by decide

/-- V11. -/
theorem test_rxi :
    (left (exec .rxi (on { fresh with pr := { fresh.pr with rxc := true, rxie := true, rxb8 := true, rxdata := 0x80#8 } }))).map
      (fun x => (x.1.rx, x.1.pr.rxc, x.1.pr.err)) =
    some ({ data := [(0, 0x80#8)], bits := [(0, 0x01#8)], head := 1, tail := 0, ovf := false }, false, false) := by
  decide

/-- V14: on a full ring an errored byte does not set the flag. -/
theorem test_rxi_error_first :
    (left (exec .rxi (on { fresh with
      rx := lapped false, pr := { fresh.pr with rxc := true, rxie := true, err := true } }))).map
      (fun x => (x.1.rx, x.1.pr.rxc, x.1.pr.err, x.2.reports)) =
    some (lapped false, false, false, [.frameParityError]) := by decide

/-- V16. -/
theorem test_txi :
    (left (exec .txi (on { fresh with
      tx := { data := [(0, 0x41#8)], bits := [(0, 0x01#8)], head := 1, tail := 0, ovf := false }
      pr := { fresh.pr with txie := true } }))).map
      (fun x => (x.1.tx.tail, x.1.pr, x.1.ref.hold)) =
    some (1, { fresh.pr with txie := true, txb8 := true, txdata := 0x41#8, dre := false }, some ⟨true, 0x41#8⟩) := by
  decide

/-- V17. -/
theorem test_txi_empty : (left (exec .txi (on { fresh with pr := { fresh.pr with txie := true } }))).map (fun x => x.1) =
    some fresh := by decide

/-- V20. -/
theorem test_write : (left (exec (.write true 0x41#8) (on { fresh with pr := { fresh.pr with txc := true } }))).map
      (fun x => (x.1.tx, x.1.txing, x.1.pr.txie, x.1.pr.txc, x.2.rsp)) =
    some ({ data := [(0, 0x41#8)], bits := [(0, 0x01#8)], head := 1, tail := 0, ovf := false }, true, true, false,
      some 0x00001#18) := by decide

/-- V21, first half: held, nothing changes. -/
theorem test_write_holds : (after (exec (.write false 0x04#8) (on { fresh with tx := bare 3 0 false }))).map
      (fun t => (t.ports, t.pend)) =
    some ([{ fresh with tx := bare 3 0 false }], some ⟨0, 0x300000000004#48, .w1⟩) := by decide

/-- V23: `TXC` stays 1. -/
theorem test_flush : (left (exec .flush (on dirty))).map (fun x => (x.1.txing, x.1.pr.txc, x.2.rsp)) =
    some (false, true, some 0x00000#18) := by decide

/-- V24. -/
theorem test_flush_holds : (after (exec .flush (on { fresh with txing := true }))).map (fun t => (t.pend, t.out.rsp)) =
    some (some ⟨0, 0x400000000000#48, .w1⟩, none) := by decide

/-- V25. -/
theorem test_read : (left (exec .read (on { fresh with
      rx := { data := [(0, 0x80#8)], bits := [(0, 0x01#8)], head := 1, tail := 0, ovf := false } }))).map
      (fun x => (x.1.rx.tail, x.2.rsp)) = some (1, some 0x00180#18) := by decide

/-- V28: an empty READ does not clear the flag. -/
theorem test_read_empty : (left (exec .read (on { fresh with rx := bare 2 2 true }))).map (fun x => (x.1.rx.ovf, x.2.rsp)) =
    some (true, some 0x1FFFF#18) := by decide

/-- V27 with the largest value of V31. -/
theorem test_peekc : (left (exec .peekc (on { fresh with
      rx := { data := [(3, 0xFF#8)], bits := [(0, 0x08#8)], head := 0, tail := 3, ovf := true } }))).map
      (fun x => (x.1.rx.tail, x.1.rx.ovf, x.2.rsp)) = some (3, true, some 0x001FF#18) := by decide

/-- V29. -/
theorem test_available : (left (exec .available (on { fresh with rx := bare 0 1 false }))).map (fun x => x.2.rsp) =
    some (some 0x00003#18) := by decide

/-- V30, first step: the flag stays. -/
theorem test_overflow : (left (exec .overflow (on { fresh with rx := bare 0 1 true }))).map
      (fun x => (x.1.rx.ovf, x.2.rsp)) = some (true, some 0x00001#18) := by decide

/-- V6: the packed flags of a ring of ten slots. -/
theorem test_packing :
    ((((bare 0 0 false).bitWrite 0 true).bitWrite 3 true).bitWrite 9 true).bits = [(0, 0x09#8), (1, 0x02#8)] := by decide

/-- V7 (c), as the same-instant move: the POP returns A1/1, the byte is dropped, the flag is left set. -/
theorem test_same_instant :
    (left (step { on { fresh with rx := lapped false, pr := { fresh.pr with rxc := true, rxie := true, rxdata := 0xEE#8 } } with
      app := [⟨0, 0x500000000000#48⟩], sched := [.rxiWithRead 0] })).map (fun x => (x.1.rx, x.2.rsp)) =
    some ({ lapped true with tail := 2 }, some 0x001A1#18) := by decide

/-- P5 row 6: SENT with nothing in HOLD raises `TXC`. -/
theorem test_sent : ({ fresh with ref := { fresh.ref with shift := some ⟨false, 0x61#8⟩ } } : Port).periph .sent =
    { fresh with pr := { fresh.pr with txc := true }, ref := { fresh.ref with wireOut := [⟨false, 0x61#8⟩] } } := by decide

/-! ### Witnesses: for each obligation with hypotheses, inputs that meet each clause's -/

/-- Both rings full, both event lines 1. -/
def busy : Port :=
  { fresh with rx := lapped false, tx := lapped true,
               pr := { fresh.pr with rxc := true, rxie := true, txie := true, rxdata := 0x77#8 } }

/-- The machine of `on` with a command held on port 0. -/
def holding (p : Port) (w : CmdWord) (ph : WPhase) : State := { on p with pend := some ⟨0, w, ph⟩ }

theorem witness_StepRunsDecodedOperation :
    State.reset.sched = [] ∧
    ({ holding busy 0x200000000000#48 .w1 with sched := [.main] } : State).pend = some ⟨0, endWord, .w1⟩ ∧
    decode (.cmd endWord) = .ok .endPort ∧
    ({ on fresh with app := [⟨0, 0x500000000000#48⟩], sched := [.main] } : State).pend = none ∧
    decode (.cmd 0x500000000000#48) = .ok .read ∧
    (on fresh).pend = none ∧ (on fresh).app = [] ∧
    ({ on fresh with sched := [.rxi 0] } : State).sched = .rxi 0 :: [] ∧
    ({ on fresh with sched := [.txi 7] } : State).sched = .txi 7 :: [] ∧
    ({ on fresh with sched := [.ring 0 .tx 0x400#12] } : State).sched = .ring 0 .tx 0x400#12 :: [] ∧
    decode (.ring .tx 0x400#12) = .ok (.pop .tx) ∧
    ({ on fresh with sched := [.func 1 0 true] } : State).sched = .func 1 0 true :: [] := by decide

theorem witness_OfferedWordIsFetchedNext :
    decodeTableWord 16 0x341 = some (.push .rx true 0x41#8) ∧ decodeTableWord 8 1 = some .rxi ∧
    decodeTableWord 8 2 = some .txi ∧ decodeTableWord 48 0x500000000000 = some .read := by decide

theorem witness_ReservedWordsHaveNoEffect :
    ({ on fresh with app := [⟨0, 0x900000000000#48⟩], sched := [.main] } : State).app = ⟨0, 0x900000000000#48⟩ :: [] ∧
    decode (.cmd 0x900000000000#48) = .error .reservedOp ∧ 0 < (on fresh).ports.length ∧
    (0x1FF#12 : RopWord).extractLsb' 9 3 = 0#3 ∧ (0xE00#12 : RopWord).extractLsb' 9 3 = 7#3 := by decide

theorem witness_DecodeInvertsEncode : (Instr.beginPort 4294967295 0xFF#8).wf = true ∧
    (Instr.baudcalc 1 0 false).wf = true ∧ (Instr.push .tx true 0xFF#8).wf = true := by decide

theorem witness_EncodeInvertsDecode : decode (.cmd 0x3000000001FF#48) = .ok (.write true 0xFF#8) ∧
    decode (.ring .tx 0x3FF#12) = .ok (.push .tx true 0xFF#8) := by decide

/-- A ring with `head = 3`, `tail = 1` has room and its next index wraps; the lapped one is full. -/
theorem witness_PushStoresOrOverflows :
    (0x3FF#12 : RopWord) &&& 0xE00#12 = 0x200#12 ∧ (on busy).port? = some busy ∧
    ((busy.ring .rx).head + 1) % ringSize (on busy).cfg .rx = (busy.ring .rx).tail ∧
    (on { fresh with tx := bare 3 1 true }).port? = some { fresh with tx := bare 3 1 true } ∧
    ((bare 3 1 true).head + 1) % ringSize State.reset.cfg .tx ≠ (bare 3 1 true).tail ∧
    (bare 3 1 true).data.wf ∧ (bare 3 1 true).bits.wf := by decide

theorem witness_PopReturnsOldestAndClearsOverflow : (on fresh).port? = some fresh ∧
    (fresh.ring .rx).head = (fresh.ring .rx).tail ∧ (on busy).port? = some busy ∧
    (busy.ring .tx).head ≠ (busy.ring .tx).tail := by decide

theorem witness_PeekAndAvailOnlyAnswer : (on fresh).port? = some fresh ∧
    (fresh.ring .tx).head = (fresh.ring .tx).tail ∧ (on busy).port? = some busy ∧
    (busy.ring .rx).head ≠ (busy.ring .rx).tail := by decide

theorem witness_ClearAndDiscardEmptyTheRing : (on busy).port? = some busy := by decide

/-- A full ring of four slots, and an empty one. -/
theorem witness_RingPrimitivesRefineAQueue : (on busy).port? = some busy ∧ 2 ≤ ringSize (on busy).cfg .rx ∧
    (busy.ring .rx).wf (ringSize (on busy).cfg .rx) ∧
    ((busy.ring .rx).held (ringSize (on busy).cfg .rx)).length = ringSize (on busy).cfg .rx - 1 ∧
    (on fresh).port? = some fresh ∧ (fresh.ring .rx).wf (ringSize (on fresh).cfg .rx) ∧
    (fresh.ring .rx).held (ringSize (on fresh).cfg .rx) = [] := by decide

/-- The smallest ring, filled; and a ring of four slots that already holds two bytes. -/
theorem witness_PushedSequencesPopInOrder :
    (bare 1 1 true).wf 2 ∧ (bare 1 1 true).occ 2 + [(0x11#8, true)].length ≤ 2 - 1 ∧
    (bare 3 1 false).wf 4 ∧ (bare 3 1 false).occ 4 + [(0x22#8, false)].length ≤ 4 - 1 := by decide

theorem witness_OccupancyCountsBetweenEmptyAndFull :
    (bare 1 0 false).head < 2 ∧ (bare 1 0 false).tail < 2 ∧ (bare 1 0 false).occ 2 = 2 - 1 ∧
    (bare 1 1 false).occ 2 = 0 := by decide

theorem witness_CanonicalStorageIsDeterminedByReads :
    Memory.wf [(0, 0xA0#8), (3, 0xA3#8)] ∧
    ∀ i, Memory.read (Memory.write [(3, 0xA3#8)] 0 0xA0#8) i = Memory.read [(0, 0xA0#8), (3, 0xA3#8)] i :=
  ⟨by decide, fun _ => rfl⟩

theorem witness_RoundingIsHalfUp : 1 ≤ (1 : Nat) ∧ rnd 12 8 = 2 := by decide

/-- The least divisor, and the largest the fallback leaves (section 3: 489). -/
theorem witness_AcceptedDivisorIsExact : baudcalc Params.vectors 16000000 4000000 true = .ok 0 true ∧
    baudcalc Params.vectors 16000000 489 true = .ok 4089 false := by decide +kernel

/-- Section 3: 488 falls back in vain, 976 falls back, 57600 with the exception, 4000001 is too fast. -/
theorem witness_FallbackGoesFromDoubleToNormal :
    Params.vectors.wf ∧ Params.vectors.kDouble ≤ Params.vectors.kNormal ∧ Params.vectors.quirkRate ≠ some 976 ∧
    (Params.vectors.divMax : Int) < divFor Params.vectors 16000000 976 true ∧
    (Params.vectors.divMax : Int) < divFor Params.vectors 16000000 488 false ∧
    divFor Params.vectors 16000000 4000001 false < 0 ∧ 0 ≤ divFor Params.vectors 16000000 4000000 false ∧
    divFor Params.vectors 16000000 4000000 false ≤ (Params.vectors.divMax : Int) ∧
    ({ Params.vectors with quirkRate := some 57600 } : Params).wf ∧
    ({ Params.vectors with quirkRate := some 57600 } : Params).quirkRate = some 57600 := by decide +kernel

theorem witness_BeginResetsThenConfigures :
    (0x10FFFFFFFFFF#48 : CmdWord) &&& 0xFF0000000000#48 = 0x100000000000#48 ∧ (on dirty).port? = some dirty ∧
    baudcalc (on dirty).cfg (on dirty).cfg.clockHz 300 (on dirty).cfg.preferU2x = .error ∧
    baudcalc (on dirty).cfg (on dirty).cfg.clockHz 9600 (on dirty).cfg.preferU2x = .ok 416 true := by decide +kernel

theorem witness_BeginProgramsTheWholeDivisor : (on dirty).cfg.wf ∧ (on dirty).port? = some dirty ∧
    baudcalc (on dirty).cfg (on dirty).cfg.clockHz 600 (on dirty).cfg.preferU2x = .ok 3332 false := by decide +kernel

theorem witness_EndDrainsThenDisables : (on busy).port? = some busy ∧ busy.tx.head ≠ busy.tx.tail ∧
    (on dirty).port? = some dirty ∧ dirty.tx.head = dirty.tx.tail := by decide

theorem witness_EndSilencesBothHandlers : (on dirty).port? = some dirty ∧ dirty.tx.empty = true := by decide

theorem witness_EventLinesEnableTheHandlers : (on fresh).port? = some fresh ∧
    fresh.pr.eventWord.getLsbD 0 = false ∧ fresh.pr.eventWord.getLsbD 1 = false ∧ busy.pr.eventWord = 0b11#2 := by
  decide

/-- An errored frame, a frame on a full ring, a frame with room where `head` wraps. -/
theorem witness_RxiTakesOneByte :
    (0b11#2 : EventWord) &&& 0b01#2 = 0b01#2 ∧
    (on { busy with pr := { busy.pr with err := true } }).port? = some { busy with pr := { busy.pr with err := true } } ∧
    (on busy).port? = some busy ∧ busy.pr.rxc = true ∧ busy.pr.rxie = true ∧ busy.pr.err = false ∧
    (busy.rx.head + 1) % (on busy).cfg.nRx = busy.rx.tail ∧
    (on { busy with rx := bare 3 1 false }).port? = some { busy with rx := bare 3 1 false } ∧
    ((bare 3 1 false).head + 1) % State.reset.cfg.nRx ≠ (bare 3 1 false).tail ∧
    (bare 3 1 false).data.wf ∧ (bare 3 1 false).bits.wf := by decide

theorem witness_TxiHandsOverOneFrame : (0b11#2 : EventWord) &&& 0b10#2 = 0b10#2 ∧
    (on busy).port? = some busy ∧ busy.pr.dre = true ∧ busy.pr.txie = true ∧
    busy.tx.head ≠ busy.tx.tail ∧
    (on { busy with tx := bare 3 3 false }).port? = some { busy with tx := bare 3 3 false } ∧
    (bare 3 3 false).head = (bare 3 3 false).tail := by decide

theorem witness_HandlersCommute : (on busy).port? = some busy ∧ busy.pr.rxIrq = true ∧ busy.pr.txIrq = true := by
  decide

theorem witness_HandlerStepLowersItsLine : (on busy).port? = some busy ∧ busy.pr.rxIrq = true ∧ busy.pr.txIrq = true := by
  decide

theorem witness_WriteEnqueuesAndArms :
    (0x3000000001FF#48 : CmdWord) &&& 0xFFFFFFFFFE00#48 = 0x300000000000#48 ∧ (on busy).port? = some busy ∧
    (on busy).cfg.writeSplit = false ∧ (busy.tx.head + 1) % (on busy).cfg.nTx = busy.tx.tail ∧
    (on dirty).port? = some dirty ∧ (dirty.tx.head + 1) % (on dirty).cfg.nTx ≠ dirty.tx.tail ∧
    dirty.tx.data.wf ∧ dirty.tx.bits.wf := by decide

/-- The machine under `WRITE_SPLIT`. -/
def split (s : State) : State := { s with cfg := { s.cfg with writeSplit := true } }

theorem witness_SplitWriteTakesItsMicroSteps :
    (split (on busy)).port? = some busy ∧ (split (on busy)).cfg.writeSplit = true ∧
    encode (.write true 0x41#8) = .cmd 0x300000000141#48 ∧ (split (on busy)).pend = none ∧
    (busy.tx.head + 1) % (split (on busy)).cfg.nTx = busy.tx.tail ∧
    (dirty.tx.head + 1) % (split (on dirty)).cfg.nTx ≠ dirty.tx.tail ∧
    (∀ ph ∈ [WPhase.w1, .w2, .w3, .w4],
      (split (holding dirty 0x300000000141#48 ph)).pend = some ⟨0, 0x300000000141#48, ph⟩ ∧
      (split (holding dirty 0x300000000141#48 ph)).cur = 0 ∧
      (split (holding dirty 0x300000000141#48 ph)).port? = some dirty) := by decide

theorem witness_FlushWaitsForCompletion :
    (on { fresh with txing := true }).port? = some { fresh with txing := true } ∧ fresh.pr.txc = false ∧
    (on dirty).port? = some dirty ∧ dirty.txing = true ∧ dirty.pr.txc = true ∧
    (on fresh).port? = some fresh ∧ fresh.txing = false := by decide

theorem witness_ReadDeliversByteAndNinthBit : (on fresh).port? = some fresh ∧ fresh.rx.head = fresh.rx.tail ∧
    (on busy).port? = some busy ∧ busy.rx.head ≠ busy.rx.tail := by decide

theorem witness_PeekcAnswersWithoutReading : (on fresh).port? = some fresh ∧ fresh.rx.head = fresh.rx.tail ∧
    (on busy).port? = some busy ∧ busy.rx.head ≠ busy.rx.tail := by decide

theorem witness_AvailableCountsReceivedBytes : (on busy).port? = some busy ∧ (on busy).cfg.wf := by decide

theorem witness_OverflowReportsTheStickyFlag : (on dirty).port? = some dirty ∧ dirty.rx.ovf = true ∧
    (on fresh).port? = some fresh ∧ fresh.rx.ovf = false := by decide

theorem witness_FramesLeaveOldestFirst : (on busy).port? = some busy ∧ 2 ≤ (on busy).cfg.nTx ∧
    busy.tx.wf (on busy).cfg.nTx ∧ busy.pr.txIrq = true ∧
    busy.tx.held (on busy).cfg.nTx = (0xA1#8, true) :: [(0xA2#8, false), (0xA3#8, true)] ∧
    busy.rx.wf (on busy).cfg.nRx ∧
    busy.rx.held (on busy).cfg.nRx = (0xA1#8, true) :: [(0xA2#8, false), (0xA3#8, true)] := by decide

/-- An END that holds, and a split WRITE that moves on from W2 and one that completes from W4. -/
theorem witness_HeldCommandIsNeverWithdrawn :
    ∀ x ∈ [(holding busy endWord .w1, endWord, WPhase.w1),
        (split (holding dirty 0x300000000061#48 .w2), 0x300000000061#48, .w2),
        (split (holding dirty 0x300000000061#48 .w4), 0x300000000061#48, .w4)],
      ({ x.1 with sched := [.main] } : State).Inv ∧
      ({ x.1 with sched := [.main] } : State).pend = some ⟨0, x.2.1, x.2.2⟩ ∧
      (after (step { x.1 with sched := [.main] })).isSome = true := by decide

theorem witness_HeldWriteCompletesAfterOnePop :
    ({ holding busy 0x300000000004#48 .w1 with sched := [.txi 0, .main] } : State).Inv ∧
    encode (.write false 0x04#8) = .cmd 0x300000000004#48 ∧ (on busy).cfg.writeSplit = false ∧
    (on busy).ports[0]? = some busy ∧ busy.tx.full (on busy).cfg.nTx = true ∧ busy.pr.txIrq = true := by decide

/-- With three bytes in `TX`, and with none. -/
theorem witness_HeldEndCompletesAndLosesNothing :
    ({ holding busy 0x200000000000#48 .w1 with sched := (List.replicate 3 (drainRound 0)).flatten ++ [.main] } : State).Inv ∧
    encode .endPort = .cmd 0x200000000000#48 ∧ busy.tx.occ (on busy).cfg.nTx = 3 ∧ busy.pr.txie = true ∧
    busy.pr.dre = true ∧ ({ holding dirty 0x200000000000#48 .w1 with sched := [.main] } : State).Inv ∧
    dirty.tx.occ (on dirty).cfg.nTx = 0 ∧ dirty.pr.txie = true ∧ dirty.pr.dre = true :=
  ⟨by decide, rfl, rfl, rfl, rfl, by decide, rfl, rfl, rfl⟩

theorem witness_SplitWriteCanLoseTheCompletion :
    (split (holding dirty 0x300000000061#48 .w4)).port? = some dirty ∧
    (split (holding dirty 0x300000000061#48 .w4)).cfg.writeSplit = true ∧
    encode (.write false 0x61#8) = .cmd 0x300000000061#48 ∧
    (split (holding dirty 0x300000000061#48 .w4)).pend = some ⟨0, 0x300000000061#48, .w4⟩ ∧
    dirty.txing = true ∧ dirty.pr.txc = true := by decide

/-- A full ring with a good frame; a full ring with an errored one; an empty ring. -/
theorem witness_SameInstantHasThreeOutcomes :
    (∀ p ∈ [busy, { busy with pr := { busy.pr with err := true } }, { busy with rx := bare 2 2 true }],
      ({ on p with app := [⟨0, 0x500000000000#48⟩], sched := [.rxiWithRead 0] } : State).Inv ∧ p.pr.rxIrq = true) ∧
    decode (.cmd 0x500000000000#48) = .ok .read ∧
    busy.rx.full (on busy).cfg.nRx = true ∧ busy.pr.err = false ∧ (bare 2 2 true).full (on busy).cfg.nRx = false := by
  decide

theorem witness_EveryStepKeepsTheShape :
    ({ on busy with sched := [.rxi 0] } : State).Inv ∧ ∃ t, step { on busy with sched := [.rxi 0] } = .next t :=
  ⟨by decide, _, rfl⟩

theorem witness_ResetHasTheShape : Params.vectors.wf ∧
    (PowerOn.named.rxData.wf ∧ PowerOn.named.rxData.below Params.vectors.nRx) ∧
    Memory.wf [(3, 0xFF#8)] ∧ Memory.below [(3, 0xFF#8)] Params.vectors.nTx := by decide

theorem witness_ResetLeavesThePortIdle : 0 < Params.vectors.nPorts := by decide

theorem witness_CommandsBeforeBegin : Params.vectors.wf ∧ 0 < Params.vectors.nPorts := by decide

/-- A byte in `TX` with the source enabled; and a split WRITE at W2 with the source not yet enabled. -/
theorem witness_TransmitRingNeverOverflowsNorStrands :
    ∀ s ∈ [{ on { busy with tx := lapped false } with sched := [.txi 0] },
           { split (holding { fresh with tx := bare 1 0 false } 0x300000000041#48 .w2) with sched := [.main] }],
      s.Inv ∧ s.inContract ∧ s.txArmed ∧ ∃ t, step s = .next t := by
  intro s hs
  simp only [List.mem_cons, List.not_mem_nil, or_false] at hs
  rcases hs with rfl | rfl
  · refine ⟨by decide, by decide, fun k p h => ?_, _, rfl⟩
    match k, h with
    | 0, h => cases h; exact ⟨rfl, fun _ => .inl rfl⟩
  · refine ⟨by decide, by decide, fun k p h => ?_, _, rfl⟩
    match k, h with
    | 0, h => cases h; exact ⟨rfl, fun _ => .inr ⟨_, rfl, rfl, rfl⟩⟩

/-- Each flag set once and cleared once. -/
theorem witness_OverflowFlagIsSticky :
    (left (exec .rxi (on busy))).map (fun x => (busy.rx.ovf, x.1.rx.ovf)) = some (false, true) ∧
    (left (exec .read (on dirty))).map (fun x => (dirty.rx.ovf, x.1.rx.ovf)) = some (true, false) ∧
    (left (exec (.push .tx false 0x01#8) (on { busy with tx := lapped false }))).map (fun x => x.1.tx.ovf) = some true ∧
    (left (exec .txi (on busy))).map (fun x => (busy.tx.ovf, x.1.tx.ovf)) = some (true, false) := by decide

theorem witness_EachRegisterHasItsWriters : ∃ t q, exec .txi (on busy) = .next t ∧
    (on busy).ports[0]? = some busy ∧ t.ports[0]? = some q := ⟨_, _, rfl, rfl, rfl⟩

theorem witness_EachRingVariableHasItsWriters : ∃ t q, exec .read (on busy) = .next t ∧
    (on busy).ports[0]? = some busy ∧ t.ports[0]? = some q ∧ (∀ w rb, encode .read ≠ .ring rb w) ∧
    (∀ r l, Instr.read ≠ .beginPort r l) := ⟨_, _, rfl, rfl, rfl, nofun, nofun⟩

theorem witness_PeripheralKeepsTheContract :
    ∃ t, ({ on busy with sched := [.periph 0 .load] } : State).ports[0]? = some busy ∧
      step { on busy with sched := [.periph 0 .load] } = .next t := ⟨_, rfl, rfl⟩

theorem witness_ReferencePeripheralMovesFrames :
    (∀ h ∈ [none, some (⟨true, 0x41#8⟩ : Frame)], ∀ f ∈ [none, some (⟨false, 0x42#8⟩ : Frame)],
      ({ fresh with ref := { fresh.ref with hold := h, shift := f } } : Port).ref.hold = h ∧
      ({ fresh with ref := { fresh.ref with hold := h, shift := f } } : Port).ref.shift = f) ∧
    fresh.pr.rxen = false ∧ ({ fresh with pr := { fresh.pr with rxen := true } } : Port).pr.rxen = true := by decide

theorem witness_PortsAreIndependent :
    ∃ t, step { on busy with ports := [fresh, busy], sched := [.txi 1] } = .next t ∧ t.cur = 1 := ⟨_, rfl, rfl⟩

/-- Two machines that differ in port 1 only. -/
theorem witness_OtherPortsDoNotLeak :
    ({ on busy with ports := [busy, fresh] } : State).port? = ({ on busy with ports := [busy, dirty] } : State).port? ∧
    ∃ t, exec .read { on busy with ports := [busy, dirty] } = .next t := ⟨by decide, _, rfl⟩

theorem witness_AvailableOnlyGrowsBetweenCommands :
    ∀ m ∈ [Move.rxi 0, .txi 0, .periph 0 .sent],
      ({ on busy with sched := [m] } : State).Inv ∧ (on busy).ports[0]? = some busy ∧
      (left (step { on busy with sched := [m] })).isSome = true := by decide

theorem witness_FinishedRunIsQuiet :
    ({ on fresh with sched := [.main] } : State).runOver ∧ ({ on fresh with sched := [.rxi 0] } : State).runOver ∧
    ({ on fresh with sched := [.txi 0] } : State).runOver ∧ 0 < (on fresh).ports.length := by decide

end Sys2Proof.Tests
end

/-! SUPPORT. The family of `00_scope.md`: what one step fetches and runs (R9), and that it reads and writes
one port only (R10). -/

namespace Sys2Proof.Machine

/-! ### What a step fetches and runs (`00_scope.md` R8, R9) -/

theorem step_of_sched_nil {s : State} (h : s.sched = []) : step s = .next s := by
  simp [step, stepSched, h]

theorem step_of_sched_cons {s : State} {m : Move} {rest : List Move} (h : s.sched = m :: rest) :
    step s = stepMove m { s with sched := rest, out := {} } := by
  simp [step, stepSched, h]

theorem runCommand_of_decode {w : CmdWord} {i : Instr} (h : decode (.cmd w) = .ok i) (s : State) :
    runCommand w s = exec i s := by
  simp [runCommand, h]

theorem stepMain_of_held {s : State} {q : Pending} {i : Instr} (hp : s.pend = some q)
    (hd : decode (.cmd q.word) = .ok i) : stepMain s = exec i { s with cur := q.port } := by
  simp [stepMain, hp, runCommand_of_decode hd]

theorem stepMain_of_presented {s : State} {c : AppCmd} {cs : List AppCmd} {i : Instr} (hp : s.pend = none)
    (ha : s.app = c :: cs) (hd : decode (.cmd c.word) = .ok i) :
    stepMain s = exec i { s with cur := c.port, app := cs } := by
  simp [stepMain, hp, ha, runCommand_of_decode hd]

theorem stepMain_of_nothing {s : State} (hp : s.pend = none) (ha : s.app = []) :
    stepMain s = .next s.noStep := by
  simp [stepMain, hp, ha]

theorem stepRing_of_decode {rb : RingSel} {w : RopWord} {i : Instr} (h : decode (.ring rb w) = .ok i)
    (s : State) : stepRing rb w s = exec i s := by
  simp [stepRing, h]

/-- Settles O1: the schedule's head is taken off, and each agent's move is the fetch lemma above for it. -/
theorem stepRunsDecodedOperation : Obligations.StepRunsDecodedOperation := by
  refine fun s => ⟨step_of_sched_nil, fun m rest hs => ?_⟩
  rw [step_of_sched_cons hs]
  refine ⟨?_, ?_, ?_, ?_, ?_, ?_, ?_⟩
  · rintro rfl q i hp hd
    exact stepMain_of_held hp hd
  · rintro rfl c cs i hp ha hd
    exact stepMain_of_presented hp ha hd
  · rintro rfl hp ha
    exact stepMain_of_nothing hp ha
  · rintro k rfl
    rfl
  · rintro k rfl
    rfl
  · rintro k rb w i rfl hd
    exact stepRing_of_decode hd _
  · rintro clock rate prefer rfl
    rfl

/-! ### A table word offered to the machine (log 5, 13) -/

theorem selects_rxi (w : EventWord) : selects w 0b01#2 0b01#2 = w.getLsbD 0 := by revert w; decide

theorem selects_txi (w : EventWord) : selects w 0b10#2 0b10#2 = w.getLsbD 1 := by revert w; decide

/-- An EVENT word that decodes runs the first handler it lists, and that handler's bit is set. -/
theorem decode_event_ok {w : EventWord} {i : Instr} (h : decode (.event w) = .ok i) :
    (∃ l, eventHandlers w = i :: l) ∧
      ((i = .rxi ∧ w.getLsbD 0 = true) ∨ (i = .txi ∧ w.getLsbD 1 = true)) := by
  simp only [decode, decodeEvent, eventHandlers, selects_rxi, selects_txi] at h ⊢
  cases h0 : w.getLsbD 0 with
  | true => simp_all
  | false => cases h1 : w.getLsbD 1 <;> simp_all

/-- Only the event lines start a handler (`30_encoding.md` R76). -/
theorem decode_cmd_not_handler {w : CmdWord} {i : Instr} (h : decode (.cmd w) = .ok i) :
    i ≠ .rxi ∧ i ≠ .txi := by
  simp only [decode, decodeCmd] at h
  split_ifs at h <;> cases h <;> exact ⟨nofun, nofun⟩

theorem decode_ring_not_handler {rb : RingSel} {w : RopWord} {i : Instr} (h : decode (.ring rb w) = .ok i) :
    i ≠ .rxi ∧ i ≠ .txi := by
  simp only [decode, decodeRop] at h
  split_ifs at h <;> cases h <;> exact ⟨nofun, nofun⟩

theorem decodeTableWord_eq_some {nbits w : Nat} {i : Instr} (h : decodeTableWord nbits w = some i) :
    ∃ r, tableRequest nbits w = some r ∧ decode r = .ok i := by
  unfold decodeTableWord at h
  cases hr : tableRequest nbits w with
  | none => simp [hr] at h
  | some r =>
    cases hd : decode r with
    | error e => simp [hr, hd] at h
    | ok j => simp only [hr, hd, Option.some.injEq] at h; exact ⟨r, rfl, h ▸ hd⟩

theorem State.withFetchWord_of_request {nbits w : Nat} {r : Request} (h : tableRequest nbits w = some r)
    (s : State) : s.withFetchWord nbits w = s.offer r := by
  simp [State.withFetchWord, State.offerTableWord, h]

@[simp] theorem PeriphRegs.raise_rxIrq (pr : PeriphRegs) (w : EventWord) :
    (pr.raise w).rxIrq = w.getLsbD 0 := by
  simp only [PeriphRegs.rxIrq, PeriphRegs.raise]
  cases w.getLsbD 0 <;> rfl

@[simp] theorem PeriphRegs.raise_txIrq (pr : PeriphRegs) (w : EventWord) :
    (pr.raise w).txIrq = w.getLsbD 1 := by
  simp only [PeriphRegs.txIrq, PeriphRegs.raise]
  cases w.getLsbD 1 <;> rfl

/-- `s1` is a state at which an operation `i` offered to `s` may run: nothing but PEND, the outputs and, for
a handler, the registers that make its event line 1 differs from `s`. -/
structure OfferedAt (i : Instr) (s s1 : State) : Prop where
  cfg : s1.cfg = s.cfg
  cur : s1.cur = s.cur
  app : s1.app = s.app
  sched : s1.sched = s.sched
  length : s1.ports.length = s.ports.length
  irq : ∀ p, s1.port? = some p → (i = .rxi → p.pr.rxIrq = true) ∧ (i = .txi → p.pr.txIrq = true)
  ports : i ≠ .rxi → i ≠ .txi → s1.ports = s.ports

theorem offeredAt_of_not_handler {i : Instr} (h : i ≠ .rxi ∧ i ≠ .txi) (s : State) (q : Option Pending) :
    OfferedAt i s { s with pend := q, out := {} } :=
  ⟨rfl, rfl, rfl, rfl, rfl, fun _ _ => ⟨(absurd · h.1), (absurd · h.2)⟩, fun _ _ => rfl⟩

theorem offeredAt_of_handler {i : Instr} {w : EventWord}
    (h : (i = .rxi ∧ w.getLsbD 0 = true) ∨ (i = .txi ∧ w.getLsbD 1 = true)) (s : State) :
    OfferedAt i s
      { s with ports := s.ports.modify s.cur fun p => { p with pr := p.pr.raise w }, out := {} } where
  cfg := rfl
  cur := rfl
  app := rfl
  sched := rfl
  length := List.length_modify ..
  irq p hp := by
    obtain ⟨p0, -, rfl⟩ : ∃ p0, s.ports[s.cur]? = some p0 ∧ { p0 with pr := p0.pr.raise w } = p := by
      simpa [State.port?] using hp
    rcases h with ⟨rfl, hw⟩ | ⟨rfl, hw⟩
    · exact ⟨fun _ => by simpa using hw, nofun⟩
    · exact ⟨nofun, fun _ => by simpa using hw⟩
  ports h1 h2 := by rcases h with ⟨rfl, -⟩ | ⟨rfl, -⟩ <;> contradiction

/-- A request that decodes, offered to the machine, is what the next step runs. -/
theorem step_offer {r : Request} {i : Instr} (h : decode r = .ok i) (s : State) :
    ∃ s1, step (s.offer r) = exec i s1 ∧ OfferedAt i s s1 := by
  cases r with
  | cmd w =>
    refine ⟨_, ?_, offeredAt_of_not_handler (decode_cmd_not_handler h) s none⟩
    rw [step_of_sched_cons rfl]
    exact stepMain_of_presented (s := { s with pend := none, app := ⟨s.cur, w⟩ :: s.app, out := {} }) rfl rfl h
  | ring rb w =>
    refine ⟨_, ?_, offeredAt_of_not_handler (decode_ring_not_handler h) s s.pend⟩
    rw [step_of_sched_cons rfl]
    exact stepRing_of_decode h _
  | event w =>
    obtain ⟨⟨l, hl⟩, hi⟩ := decode_event_ok h
    refine ⟨_, ?_, offeredAt_of_handler hi s⟩
    rcases hi with ⟨rfl, -⟩ | ⟨rfl, -⟩
    · rw [step_of_sched_cons (m := .rxi s.cur) (rest := s.sched) (by simp [State.offer, hl])]
      rfl
    · rw [step_of_sched_cons (m := .txi s.cur) (rest := s.sched) (by simp [State.offer, hl])]
      rfl
  | func clock rate prefer =>
    cases h
    refine ⟨_, ?_, offeredAt_of_not_handler (i := .baudcalc clock rate prefer) ⟨nofun, nofun⟩ s s.pend⟩
    rw [step_of_sched_cons rfl]
    rfl

/-- Settles O2, by the interface the table word stands on. -/
theorem offeredWordIsFetchedNext : Obligations.OfferedWordIsFetchedNext := by
  intro s nbits w i h
  obtain ⟨r, hr, hd⟩ := decodeTableWord_eq_some h
  obtain ⟨s1, hstep, ⟨hcfg, hcur, happ, hsched, hlen, hirq, hports⟩⟩ := step_offer hd s
  rw [State.withFetchWord_of_request hr]
  exact ⟨s1, hstep, hcfg, hcur, happ, hsched, hlen, hirq, hports⟩

/-! ### A step writes one port only (`00_scope.md` R10) -/

/-- `t` has the parameters of `s`, and its ports but for the one it acts on. -/
def WritesOnlyCur (s t : State) : Prop :=
  t.cfg = s.cfg ∧ (t.ports = s.ports ∨ ∃ q, t.ports = s.ports.set t.cur q)

theorem WritesOnlyCur.other_port {s t : State} (h : WritesOnlyCur s t) {k : Nat} (hk : k ≠ t.cur) :
    t.ports[k]? = s.ports[k]? := by
  rcases h with ⟨-, e | ⟨q, e⟩⟩
  · rw [e]
  · rw [e, List.getElem?_set_ne hk.symm]

theorem WritesOnlyCur.length {s t : State} (h : WritesOnlyCur s t) : t.ports.length = s.ports.length := by
  rcases h with ⟨-, e | ⟨q, e⟩⟩
  · rw [e]
  · rw [e, List.length_set]

theorem exec_writesOnlyCur {i : Instr} {s t : State} (h : exec i s = .next t) : WritesOnlyCur s t := by
  obtain ⟨⟨hcfg, hcur, -, -⟩, hports⟩ := exec_effect h
  refine ⟨hcfg, hports.imp id ?_⟩
  rintro ⟨p, q, -, hq, -⟩
  exact ⟨q, hcur ▸ hq⟩

theorem rxiWithRead_writesOnlyCur (s : State) (p : Port) : WritesOnlyCur s (rxiWithRead s p) := by
  unfold rxiWithRead
  split
  · exact ⟨rfl, .inr ⟨_, rfl⟩⟩
  · exact ⟨rfl, .inr ⟨_, rfl⟩⟩

theorem step_writesOnlyCur {s t : State} (h : step s = .next t) : WritesOnlyCur s t := by
  cases step_kind h with
  | idle hs e => subst e; exact ⟨rfl, .inl rfl⟩
  | runs m rest i s0 hs h0 src hx =>
    obtain ⟨hcfg, hports, -⟩ := h0
    simpa only [WritesOnlyCur, hcfg, hports] using exec_writesOnlyCur hx
  | illegal rest w r s0 p hs h0 hd hw hp e =>
    obtain ⟨hcfg, hports, -⟩ := h0
    subst e
    exact ⟨hcfg, .inr ⟨p, by simp [hports]⟩⟩
  | still m rest s0 hs h0 hm e =>
    obtain ⟨hcfg, hports, -⟩ := h0
    subst e
    exact ⟨hcfg, .inl hports⟩
  | periph k a rest p hs hp e => subst e; exact ⟨rfl, .inr ⟨_, rfl⟩⟩
  | sameInstant k w rest cs p hs hpend ha hp hi hd e => subst e; exact rxiWithRead_writesOnlyCur _ p

/-- Settles O52: whatever kind of step it is, at most the current port is replaced. -/
theorem portsAreIndependent : Obligations.PortsAreIndependent := by
  intro s t h
  have hw := step_writesOnlyCur h
  exact ⟨fun _ hk => hw.other_port hk, hw.1, hw.length⟩

/-! ### An operation reads one port only (`00_scope.md` R10) -/

/-- The two states agree on all an operation reads: the parameters, the current port and `PEND`. -/
structure LocallyEqual (s s' : State) : Prop where
  cfg : s'.cfg = s.cfg
  cur : s'.cur = s.cur
  pend : s'.pend = s.pend
  port : s'.port? = s.port?

/-- They agree on the outputs of their latest step too. -/
structure AnswerEqual (s s' : State) : Prop extends LocallyEqual s s' where
  out : s'.out = s.out

namespace LocallyEqual

variable {s s' : State} {p : Port} (h : LocallyEqual s s')
include h

theorem phaseOf (w : CmdWord) : s'.phaseOf w = s.phaseOf w := by
  simp only [State.phaseOf, h.pend, h.cur]

theorem commit (hp : s.port? = some p) (q : Port) (o : Out) : AnswerEqual (s.commit q o) (s'.commit q o) :=
  ⟨⟨h.cfg, h.cur, h.pend, by
    rw [State.port?_commit hp, State.port?_commit (h.port.trans hp)]⟩, rfl⟩

theorem respond (hp : s.port? = some p) (q : Port) (rsp : RspWord) (reps : List Condition) :
    AnswerEqual (s.respond q rsp reps) (s'.respond q rsp reps) :=
  ⟨⟨h.cfg, h.cur, rfl, by
    rw [State.port?_respond hp, State.port?_respond (h.port.trans hp)]⟩, rfl⟩

theorem hold (w : CmdWord) (ph : WPhase) : AnswerEqual (s.hold w ph) (s'.hold w ph) :=
  ⟨⟨h.cfg, h.cur, by simp [h.cur], h.port⟩, rfl⟩

theorem noStep : AnswerEqual s.noStep s'.noStep := ⟨⟨h.cfg, h.cur, h.pend, h.port⟩, rfl⟩

/-- Run on the current port, two bodies that agree on that port agree as operations. -/
theorem onPort {f f' : Port → State} {t : State} (ht : s.onPort f = .next t)
    (hf : ∀ p, s.port? = some p → AnswerEqual (f p) (f' p)) :
    ∃ t', s'.onPort f' = .next t' ∧ AnswerEqual t t' := by
  obtain ⟨p, hp, rfl⟩ := State.onPort_next ht
  exact ⟨f' p, State.onPort_some f' (h.port.trans hp), hf p hp⟩

theorem writeAtomic_answerEqual (hp : s.port? = some p) (ninth : Bool) (byte : Byte) :
    AnswerEqual (writeAtomic ninth byte s p) (writeAtomic ninth byte s' p) := by
  unfold writeAtomic
  rw [h.cfg]
  split
  · exact h.respond hp _ _ _
  · exact h.hold _ _

theorem writeSplit_answerEqual (hp : s.port? = some p) (ninth : Bool) (byte : Byte) :
    AnswerEqual (writeSplit ninth byte s p) (writeSplit ninth byte s' p) := by
  have onward : ∀ q w ph, AnswerEqual ((s.commit q {}).hold w ph) ((s'.commit q {}).hold w ph) :=
    fun q w ph => (h.commit hp q {}).toLocallyEqual.hold w ph
  unfold writeSplit
  rw [h.cfg, h.phaseOf]
  split
  · split
    · exact onward _ _ _
    · exact h.hold _ _
  · exact onward _ _ _
  · exact onward _ _ _
  · exact h.respond hp _ _ _

/-- An operation answers alike on machines that agree on what it reads. -/
theorem exec_answerEqual {i : Instr} {t : State} (ht : exec i s = .next t) :
    ∃ t', exec i s' = .next t' ∧ AnswerEqual t t' := by
  cases i with
  | push rb ninth byte => exact h.onPort ht fun p hp => by rw [h.cfg]; exact h.commit hp _ _
  | pop rb => exact h.onPort ht fun p hp => by rw [h.cfg]; exact h.commit hp _ _
  | peek rb => exact h.onPort ht fun p hp => h.commit hp _ _
  | avail rb => exact h.onPort ht fun p hp => by rw [h.cfg]; exact h.commit hp _ _
  | clear rb => exact h.onPort ht fun p hp => h.commit hp _ _
  | discard rb => exact h.onPort ht fun p hp => h.commit hp _ _
  | baudcalc clock rate prefer =>
    simp only [exec, execBaudcalc, Host.Outcome.next.injEq] at ht
    subst ht
    exact ⟨_, rfl, ⟨h.cfg, h.cur, h.pend, h.port⟩, by rw [h.cfg]⟩
  | beginPort rate line =>
    refine h.onPort ht fun p hp => ?_
    rw [h.cfg]
    split
    · exact h.respond hp _ _ _
    · exact h.respond hp _ _ _
  | endPort =>
    refine h.onPort ht fun p hp => ?_
    split
    · exact h.respond hp _ _ _
    · exact h.hold _ _
  | rxi =>
    refine h.onPort ht fun p hp => ?_
    rw [h.cfg]
    split
    · exact h.commit hp _ _
    · exact h.noStep
  | txi =>
    refine h.onPort ht fun p hp => ?_
    rw [h.cfg]
    split
    · exact h.commit hp _ _
    · exact h.noStep
  | write ninth byte =>
    refine h.onPort ht fun p hp => ?_
    rw [h.cfg]
    split
    · exact h.writeSplit_answerEqual hp _ _
    · exact h.writeAtomic_answerEqual hp _ _
  | flush =>
    refine h.onPort ht fun p hp => ?_
    split
    · exact h.respond hp _ _ _
    · exact h.hold _ _
  | read => exact h.onPort ht fun p hp => by rw [h.cfg]; exact h.respond hp _ _ _
  | peekc => exact h.onPort ht fun p hp => h.respond hp _ _ _
  | available => exact h.onPort ht fun p hp => by rw [h.cfg]; exact h.respond hp _ _ _
  | overflow => exact h.onPort ht fun p hp => h.respond hp _ _ _

end LocallyEqual

/-- Settles O53, operation by operation: each reads the parameters, the current port and `PEND` alone. -/
theorem otherPortsDoNotLeak : Obligations.OtherPortsDoNotLeak := by
  intro i s s' t hcfg hcur hpend hport ht
  obtain ⟨t', ht', ⟨-, -, hpend', hport'⟩, hout⟩ :=
    LocallyEqual.exec_answerEqual ⟨hcfg, hcur, hpend, hport⟩ ht
  exact ⟨t', ht', hport', hout, hpend'⟩

end Sys2Proof.Machine

/-! SUPPORT. The family of `10_state.md`: the shape of the state and of its rings (R21 to R23), the overflow
flag (R25), who writes each register (R26 to R28), the event lines (R30) and reset (R35). -/

namespace Sys2Proof.Machine

/-! ### What an operation and its word have to do with each other -/

theorem decode_cmd_encode {w : CmdWord} {i : Instr} (h : decode (.cmd w) = .ok i) : ∃ v, encode i = .cmd v := by
  simp only [decode, decodeCmd] at h
  split_ifs at h <;> cases h <;> exact ⟨_, rfl⟩

theorem decode_ring_encode {rb : RingSel} {w : RopWord} {i : Instr} (h : decode (.ring rb w) = .ok i) :
    ∃ v, encode i = .ring rb v := by
  simp only [decode, decodeRop] at h
  split_ifs at h <;> cases h <;> exact ⟨_, rfl⟩

theorem selects_writeWord (ninth : Bool) (byte : Byte) :
    selects (writeWord ninth byte) 0xFFFFFFFFFE00#48 0x300000000000#48 = true :=
  (selects_write _).mpr (writeWord_fields ninth byte).1

theorem selects_begin_writeWord (ninth : Bool) (byte : Byte) :
    selects (writeWord ninth byte) 0xFF0000000000#48 0x100000000000#48 = false := by
  have h := beq_iff_eq.mp (selects_writeWord ninth byte)
  have hm : writeWord ninth byte &&& 0xFF0000000000#48 =
      (writeWord ninth byte &&& 0xFFFFFFFFFE00#48) &&& 0xFF0000000000#48 := by
    rw [BitVec.and_assoc]; rfl
  rw [selects, hm, h]
  decide

theorem writeWord_ne_endWord (ninth : Bool) (byte : Byte) : writeWord ninth byte ≠ 0x200000000000#48 := by
  intro e
  have h := selects_writeWord ninth byte
  rw [e] at h
  revert h
  decide

/-- The WRITE row of R74 holds the encoded WRITEs and no other word. -/
theorem decodeCmd_eq_write {w : CmdWord} {ninth : Bool} {byte : Byte} :
    decodeCmd w = .ok (.write ninth byte) ↔ w = writeWord ninth byte := by
  constructor
  · intro h
    unfold decodeCmd at h
    split_ifs at h with _ _ hw <;> cases h
    conv_lhs => rw [cmd_fields_write w, (selects_write w).mp hw]
    rfl
  · rintro rfl
    obtain ⟨-, hn, hb⟩ := writeWord_fields ninth byte
    have he : selects (writeWord ninth byte) 0xFFFFFFFFFFFF#48 0x200000000000#48 = false :=
      Bool.eq_false_iff.mpr fun h => writeWord_ne_endWord ninth byte ((selects_wholeCmd _ _).mp h)
    rw [decodeCmd, selects_begin_writeWord, he, selects_writeWord, hn, hb]
    rfl

theorem decodeCmd_endWord : decodeCmd endWord = .ok .endPort := by decide
theorem decodeCmd_flushWord : decodeCmd flushWord = .ok .flush := by decide

/-! ### Which commands may be held (`45_transport.md` R181, R188) -/

theorem Pending.legal_of_write {c : Params} {k : Nat} {ninth : Bool} {byte : Byte} {ph : WPhase}
    (h : c.writeSplit = true ∨ ph = .w1) : Pending.legal c ⟨k, writeWord ninth byte, ph⟩ = true := by
  rw [Pending.legal, decodeCmd_eq_write.mpr rfl]
  simpa using h

theorem Pending.legal_of_endPort (c : Params) (k : Nat) : Pending.legal c ⟨k, endWord, .w1⟩ = true := by
  rw [Pending.legal, decodeCmd_endWord]
  rfl

theorem Pending.legal_of_flush (c : Params) (k : Nat) : Pending.legal c ⟨k, flushWord, .w1⟩ = true := by
  rw [Pending.legal, decodeCmd_flushWord]
  rfl

/-- A held command decodes. -/
theorem Pending.decodes_of_legal {c : Params} {q : Pending} (h : q.legal c = true) :
    ∃ i, decodeCmd q.word = .ok i := by
  unfold Pending.legal at h
  cases hd : decodeCmd q.word with
  | ok i => exact ⟨i, rfl⟩
  | error e => simp [hd] at h

/-- Past the first micro-step stands a split WRITE only. -/
theorem Pending.write_of_legal {c : Params} {q : Pending} (h : q.legal c = true) (hph : q.phase ≠ .w1) :
    c.writeSplit = true ∧ ∃ ninth byte, q.word = writeWord ninth byte := by
  unfold Pending.legal at h
  split at h
  · rename_i ninth byte hd
    exact ⟨by simpa [hph] using h, ninth, byte, decodeCmd_eq_write.mp hd⟩
  · simp [hph] at h
  · simp [hph] at h
  · cases h

/-- What an operation leaves held was held before, or is a legal command on the current port. -/
theorem exec_pend_legal {i : Instr} {s t : State} (h : exec i s = .next t) :
    ∀ q ∈ t.pend, q ∈ s.pend ∨ (q.port = s.cur ∧ q.legal s.cfg = true) := by
  intro q hq
  cases exec_pend h with
  | untouched hi hp hr => exact .inl (hp ▸ hq)
  | completed w hi hp rsp hr hg => rw [hp] at hq; cases hq
  | holds w ph hi hp hr hg =>
    rw [hp] at hq
    cases hq
    refine .inr ⟨rfl, ?_⟩
    rcases hg with ⟨rfl, rfl⟩ | ⟨rfl, rfl⟩ | ⟨ninth, byte, rfl, hph⟩
    · cases hi; exact Pending.legal_of_endPort _ _
    · cases hi; exact Pending.legal_of_flush _ _
    · cases hi; exact Pending.legal_of_write (hph.elim (fun h => .inr h.2) fun h => .inl h.1)

/-! ### Every step keeps the shape -/

/-- Every operation but BAUDCALC needs its port. -/
theorem exec_on_port {i : Instr} {s t : State} (hi : ∀ clock rate prefer, encode i ≠ .func clock rate prefer)
    (h : exec i s = .next t) : s.cur < s.ports.length := by
  have key : ∀ {f : Port → State}, s.onPort f = .next t → s.cur < s.ports.length := fun hf => by
    obtain ⟨p, hp, -⟩ := State.onPort_next hf
    exact State.port?_lt hp
  cases i with
  | baudcalc clock rate prefer => exact absurd rfl (hi clock rate prefer)
  | _ => exact key h

/-- The port an operation acts on exists, or it is the one the machine acted on before. -/
theorem Source.cur_exists {s s0 t : State} {m : Move} {i : Instr} (src : Source s m i s0)
    (h : exec i s0 = .next t) : s0.cur < s0.ports.length ∨ s0.cur = s.cur := by
  cases src with
  | held q i s0 hp hc ha hd =>
    obtain ⟨v, hv⟩ := decode_cmd_encode hd
    exact .inl (exec_on_port (by simp [hv]) h)
  | presented c i s0 hp hc ha hd =>
    obtain ⟨v, hv⟩ := decode_cmd_encode hd
    exact .inl (exec_on_port (by simp [hv]) h)
  | rxi s0 ha => exact .inl (exec_on_port (i := .rxi) nofun h)
  | txi s0 ha => exact .inl (exec_on_port (i := .txi) nofun h)
  | ring rb w i s0 ha hd =>
    obtain ⟨v, hv⟩ := decode_ring_encode hd
    exact .inl (exec_on_port (by simp [hv]) h)
  | func clock rate prefer s0 ha hc => exact .inr hc

@[simp] theorem rxiWithRead_cur (s : State) (p : Port) : (rxiWithRead s p).cur = s.cur := by
  unfold rxiWithRead; split <;> rfl

@[simp] theorem rxiWithRead_pend (s : State) (p : Port) : (rxiWithRead s p).pend = none := by
  unfold rxiWithRead; split <;> rfl

@[simp] theorem rxiWithRead_sched (s : State) (p : Port) : (rxiWithRead s p).sched = s.sched := by
  unfold rxiWithRead; split <;> rfl

/-- The same-instant move replaces `RX` by what a POP, or a PUSH with a POP, leaves, and reads `RXDATA`. -/
theorem rxiWithRead_ports (s : State) (p : Port) : ∃ r : Ring,
    (r = (p.rx.pop s.cfg.nRx).2 ∨ ∃ byte ninth, r = (p.rx.pushWithPop s.cfg.nRx byte ninth).2.2) ∧
      (rxiWithRead s p).ports = s.ports.set s.cur { p with pr := p.pr.readRxData.2, rx := r } := by
  unfold rxiWithRead
  split
  · exact ⟨_, .inl rfl, rfl⟩
  · exact ⟨_, .inr ⟨_, _, rfl⟩, rfl⟩

theorem step_cur_exists {s t : State} (hs : s.cur < s.ports.length) (h : step s = .next t) :
    t.cur < s.ports.length := by
  cases step_kind h with
  | idle _ e => exact e ▸ hs
  | runs m rest i s0 _ h0 src hx =>
    obtain ⟨-, hports, -⟩ := h0
    obtain ⟨⟨-, hcur, -⟩, -⟩ := exec_effect hx
    rw [hcur]
    rcases src.cur_exists hx with hlt | hc
    · exact hports ▸ hlt
    · exact hc ▸ hs
  | illegal rest w r s0 p _ h0 _ _ hp e =>
    obtain ⟨-, hports, -⟩ := h0
    subst e
    exact hports ▸ State.port?_lt hp
  | still m rest s0 _ h0 hm e =>
    obtain ⟨-, hports, -⟩ := h0
    subst e
    rcases hm with ⟨-, -, hc⟩ | ⟨-, p, hp⟩
    · exact hc ▸ hs
    · exact hports ▸ State.port?_lt hp
  | periph k a rest p _ hp e =>
    subst e
    exact (List.getElem?_eq_some_iff.mp hp).1
  | sameInstant k w rest cs p _ _ _ hp _ _ e =>
    subst e
    rw [rxiWithRead_cur]
    exact (List.getElem?_eq_some_iff.mp hp).1

/-- Every port of the list has well-formed rings. -/
def PortsWf (c : Params) (l : List Port) : Prop := ∀ p ∈ l, p.wf c

theorem PortsWf.get {c : Params} {l : List Port} (h : PortsWf c l) {k : Nat} {p : Port} (hp : l[k]? = some p) :
    p.wf c :=
  h p (List.mem_of_getElem? hp)

theorem PortsWf.set {c : Params} {l : List Port} (h : PortsWf c l) {q : Port} (hq : q.wf c) (k : Nat) :
    PortsWf c (l.set k q) := fun p hp =>
  (List.mem_or_eq_of_mem_set hp).elim (h p) fun e => e ▸ hq

theorem exec_keeps_portsWf {i : Instr} {s t : State} (hs : PortsWf s.cfg s.ports) (h : exec i s = .next t) :
    PortsWf s.cfg t.ports := by
  obtain ⟨-, e | ⟨p, q, hp, e, he⟩⟩ := exec_effect h
  · exact e ▸ hs
  · exact e ▸ hs.set (he.keeps_wf (hs.get hp)) _

theorem Port.periph_keeps_wf {c : Params} {p : Port} (h : p.wf c) (a : PeriphAct) : (p.periph a).wf c := by
  obtain ⟨hrx, htx, -⟩ := p.periph_rings a
  rw [Port.wf, hrx, htx]
  exact h

theorem rxiWithRead_keeps_portsWf {s : State} {p : Port} (hs : PortsWf s.cfg s.ports) (hp : p.wf s.cfg) :
    PortsWf s.cfg (rxiWithRead s p).ports := by
  obtain ⟨r, hr, e⟩ := rxiWithRead_ports s p
  rw [e]
  refine hs.set (q := { p with pr := p.pr.readRxData.2, rx := r }) ⟨?_, hp.2⟩ _
  rcases hr with rfl | ⟨byte, ninth, rfl⟩
  · exact Ring.pop_keeps_wf hp.1
  · exact Ring.pushWithPop_keeps_wf hp.1 _ _

theorem step_keeps_portsWf {s t : State} (hs : PortsWf s.cfg s.ports) (h : step s = .next t) :
    PortsWf s.cfg t.ports := by
  cases step_kind h with
  | idle _ e => exact e ▸ hs
  | runs m rest i s0 _ h0 src hx =>
    obtain ⟨hcfg, hports, -⟩ := h0
    rw [← hcfg, ← hports] at hs
    exact hcfg ▸ exec_keeps_portsWf hs hx
  | illegal rest w r s0 p _ h0 _ _ hp e =>
    obtain ⟨-, hports, -⟩ := h0
    rw [← hports] at hs
    exact e ▸ hs.set (hs.get hp) _
  | still m rest s0 _ h0 _ e =>
    obtain ⟨-, hports, -⟩ := h0
    exact e ▸ hports ▸ hs
  | periph k a rest p _ hp e => exact e ▸ hs.set (Port.periph_keeps_wf (hs.get hp) a) k
  | sameInstant k w rest cs p _ _ _ hp _ _ e =>
    exact e ▸ rxiWithRead_keeps_portsWf
      (s := { s with sched := rest, cur := k, out := {}, app := cs }) hs (hs.get hp)

/-- What a step leaves held was held before, or is a legal command on the port the step acted on. -/
theorem step_pend_legal {s t : State} (h : step s = .next t) :
    ∀ q ∈ t.pend, q ∈ s.pend ∨ (q.port = t.cur ∧ q.legal s.cfg = true) := by
  intro q hq
  cases step_kind h with
  | idle _ e => exact .inl (e ▸ hq)
  | runs m rest i s0 _ h0 src hx =>
    obtain ⟨hcfg, -, -, hpend, -⟩ := h0
    obtain ⟨⟨-, hcur, -⟩, -⟩ := exec_effect hx
    rw [← hcfg, ← hpend, hcur]
    exact exec_pend_legal hx q hq
  | illegal rest w r s0 p _ _ _ _ _ e => subst e; cases hq
  | still m rest s0 _ h0 _ e =>
    obtain ⟨-, -, -, hpend, -⟩ := h0
    subst e
    exact .inl (hpend ▸ hq)
  | periph k a rest p _ _ e => subst e; exact .inl hq
  | sameInstant k w rest cs p _ _ _ _ _ _ e => subst e; simp at hq

/-- Settles O41: a step keeps the parameters and the number of ports, acts on a port that exists, keeps every
ring's shape and holds legal commands only. -/
theorem everyStepKeepsTheShape : Obligations.EveryStepKeepsTheShape := by
  rintro s t ⟨hcfg, hlen, hcur, hports, hpend⟩ h
  have hw := step_writesOnlyCur h
  have htcur := step_cur_exists (hlen ▸ hcur) h
  rw [State.Inv, hw.1, hw.length]
  refine ⟨hcfg, hlen, hlen ▸ htcur, step_keeps_portsWf hports h, fun q hq => ?_⟩
  rcases step_pend_legal h q hq with hold | ⟨hport, hlegal⟩
  · exact hpend q hold
  · exact ⟨hport ▸ hlen ▸ htcur, hlegal⟩

/-! ### The overflow flag of one ring (`10_state.md` R25) -/

@[simp] theorem Ring.push_ovf (n : Nat) (r : Ring) (byte : Byte) (ninth : Bool) :
    (r.push n byte ninth).2.ovf = (r.ovf || r.full n) := by
  cases hf : r.full n
  · simp [Ring.push_room hf]
  · simp [Ring.push_full hf]

@[simp] theorem Ring.pop_ovf (n : Nat) (r : Ring) : (r.pop n).2.ovf = (r.ovf && r.empty) := by
  cases he : r.empty
  · simp [Ring.pop_some he]
  · simp [Ring.pop_empty he]

/-! ### What RXI and TXI leave of their port -/

theorem Port.receive_port (c : Params) (p : Port) : (p.receive c).2 = { p with
    pr := p.pr.readRxData.2
    rx := if p.pr.err then p.rx else (p.rx.push c.nRx p.pr.rxdata p.pr.rxb8).2 } := by
  unfold Port.receive
  cases p.pr.err <;> rfl

theorem Port.transmit_of_empty {p : Port} (h : p.tx.empty = true) (c : Params) :
    p.transmit c = { p with pr := { p.pr with txie := false } } := by
  simp [Port.transmit, Ring.pop_empty h]

theorem Port.transmit_of_held {p : Port} (h : p.tx.empty = false) (c : Params) :
    p.transmit c =
      { p with
        tx := { p.tx with tail := (p.tx.tail + 1) % c.nTx, ovf := false }
        pr := { p.pr with
          txb8 := p.tx.bitRead p.tx.tail, txdata := p.tx.data.read p.tx.tail, dre := false }
        ref := { p.ref with hold := some ⟨p.tx.bitRead p.tx.tail, p.tx.data.read p.tx.tail⟩ } } := by
  simp [Port.transmit, Ring.pop_some h, Ring.slot, Port.writeTxData]

/-! ### No byte is stranded in `TX` (`43_portconfig.md` R141 corner case b) -/

/-- The port part of `State.txArmed`, with `w2` for "a split WRITE stands at W2 on this port". -/
def Port.Armed (w2 : Prop) (p : Port) : Prop :=
  p.tx.ovf = false ∧ (p.tx.empty = false → p.pr.txie = true ∨ w2)

theorem State.txArmed_iff {s : State} :
    s.txArmed ↔ ∀ (k : Nat) (p : Port), s.ports[k]? = some p → p.Armed (s.atW2 k) := Iff.rfl

theorem Port.Armed.mono {w2 w2' : Prop} {p : Port} (h : p.Armed w2) (hw : w2 → w2') : p.Armed w2' :=
  ⟨h.1, fun he => (h.2 he).imp_right hw⟩

/-- Only `TX` and `TXIE` matter. -/
theorem Port.Armed.congr {w2 : Prop} {p q : Port} (h : p.Armed w2) (htx : q.tx = p.tx)
    (htxie : q.pr.txie = p.pr.txie) : q.Armed w2 := by
  rw [Port.Armed, htx, htxie]
  exact h

theorem Port.armed_of_empty {w2 : Prop} {p : Port} (ho : p.tx.ovf = false) (he : p.tx.empty = true) :
    p.Armed w2 :=
  ⟨ho, fun h => by simp [he] at h⟩

theorem Port.Armed.transmit {w2 : Prop} {p : Port} (h : p.Armed w2) (c : Params) : (p.transmit c).Armed w2 := by
  cases he : p.tx.empty with
  | true =>
    rw [Port.transmit_of_empty he]
    exact Port.armed_of_empty h.1 he
  | false =>
    rw [Port.transmit_of_held he]
    exact ⟨rfl, fun _ => h.2 he⟩

/-- Whatever an operation other than WRITE and a bench's ring request does, it strands no byte. -/
theorem PortEffect.keeps_armed {c : Params} {p q : Port} {i : Instr} {w2 : Prop} (e : PortEffect c p i q)
    (hring : ∀ rb w, encode i ≠ .ring rb w) (hwrite : ∀ ninth byte, i ≠ .write ninth byte) (h : p.Armed w2) :
    q.Armed w2 := by
  cases e with
  | same => exact h
  | push rb ninth byte => exact absurd rfl (hring _ _)
  | pop rb => exact absurd rfl (hring _ _)
  | clear rb => exact absurd rfl (hring _ _)
  | discard rb => exact absurd rfl (hring _ _)
  | begun => exact Port.armed_of_empty rfl rfl
  | failed => exact Port.armed_of_empty rfl rfl
  | ended hr => exact Port.armed_of_empty h.1 hr
  | received => exact h.congr (by rw [Port.receive_port]) (by rw [Port.receive_port]; rfl)
  | transmitted => exact h.transmit c
  | written => exact absurd rfl (hwrite _ _)
  | enqueued => exact absurd rfl (hwrite _ _)
  | armed => exact absurd rfl (hwrite _ _)
  | marked => exact absurd rfl (hwrite _ _)
  | cleared => exact absurd rfl (hwrite _ _)
  | flushed => exact h
  | read => exact h

theorem Port.armTx_armed {w2 : Prop} {p : Port} (ho : p.tx.ovf = false) : p.armTx.Armed w2 :=
  ⟨ho, fun _ => .inl rfl⟩

/-- The PUSH of a WRITE has found room, so it leaves the flag as it was (`90_conflicts.md` C3). -/
theorem Port.enqueue_tx_ovf {c : Params} {p : Port} (h : p.writeReady c = true) (byte : Byte) (ninth : Bool) :
    (p.enqueue c byte ninth).tx.ovf = p.tx.ovf := by
  have hf : p.tx.full c.nTx = false := by simpa [Port.writeReady] using h
  simp [Port.enqueue, hf]

/-- A step that replaces one port, and withdraws no W2 on the others, keeps every port armed if the new port
is. -/
theorem State.txArmed.set {s t : State} (hs : s.txArmed) {k : Nat} {q : Port} (hports : t.ports = s.ports.set k q)
    (hw2 : ∀ j, j ≠ k → s.atW2 j → t.atW2 j) (hq : q.Armed (t.atW2 k)) : t.txArmed := by
  rw [State.txArmed_iff] at hs ⊢
  intro j p hp
  rw [hports] at hp
  by_cases hj : j = k
  · subst hj
    have hlt : j < s.ports.length := by simpa using (List.getElem?_eq_some_iff.mp hp).1
    rw [List.getElem?_set_self hlt] at hp
    cases hp
    exact hq
  · rw [List.getElem?_set_ne (Ne.symm hj)] at hp
    exact (hs j p hp).mono (hw2 j hj)

theorem State.txArmed.of_ports_eq {s t : State} (hs : s.txArmed) (hports : t.ports = s.ports)
    (hw2 : ∀ j, s.atW2 j → t.atW2 j) : t.txArmed := by
  rw [State.txArmed_iff] at hs ⊢
  intro j p hp
  exact (hs j p (hports ▸ hp)).mono (hw2 j)

theorem State.atW2.congr {s t : State} (h : t.pend = s.pend) {k : Nat} : s.atW2 k → t.atW2 k := by
  rw [State.atW2, State.atW2, h]
  exact id

/-- With nothing held no port is at W2. -/
theorem State.not_atW2 {s : State} (h : s.pend = none) (k : Nat) : ¬ s.atW2 k := by
  rintro ⟨q, hq, -⟩
  rw [h] at hq
  cases hq

/-- At W2 on a port stands a split WRITE of that port. -/
theorem State.Inv.write_of_atW2 {s : State} (h : s.Inv) {k : Nat} (hw2 : s.atW2 k) :
    s.cfg.writeSplit = true ∧ ∃ ninth byte, s.pend = some ⟨k, writeWord ninth byte, .w2⟩ := by
  obtain ⟨-, -, -, -, hpend⟩ := h
  obtain ⟨⟨port, word, ph⟩, hq, rfl, rfl⟩ := hw2
  obtain ⟨hs, ninth, byte, hw⟩ := Pending.write_of_legal (hpend _ hq).2 nofun
  exact ⟨hs, ninth, byte, hw ▸ hq⟩

/-- An operation other than WRITE and a bench's ring request keeps every port armed, if it withdraws no W2. -/
theorem exec_keeps_txArmed {i : Instr} {s t : State} (h : exec i s = .next t) (hs : s.txArmed)
    (hring : ∀ rb w, encode i ≠ .ring rb w) (hwrite : ∀ ninth byte, i ≠ .write ninth byte)
    (hw2 : ∀ k, s.atW2 k → t.atW2 k) : t.txArmed := by
  obtain ⟨-, e | ⟨p, q, hp, e, he⟩⟩ := exec_effect h
  · exact hs.of_ports_eq e hw2
  · exact hs.set e (fun j _ => hw2 j) (he.keeps_armed hring hwrite ((State.txArmed_iff.mp hs _ p hp).mono (hw2 _)))

/-- WRITE keeps every port armed if no port but its own is at W2, and its own only by this very command: W1
leaves its port at W2, and W2 enables the source. -/
theorem exec_write_keeps_txArmed {ninth : Bool} {byte : Byte} {s t : State}
    (h : exec (.write ninth byte) s = .next t) (hs : s.txArmed)
    (hw2 : ∀ k, s.atW2 k → k = s.cur ∧ s.cfg.writeSplit = true ∧ s.phaseOf (writeWord ninth byte) = .w2) :
    t.txArmed := by
  obtain ⟨p, hp, rfl⟩ := State.onPort_next h
  have hp' : p.Armed (s.atW2 s.cur) := State.txArmed_iff.mp hs _ p hp
  have others : ∀ {t : State}, ∀ j, j ≠ s.cur → s.atW2 j → t.atW2 j :=
    fun j hj hj2 => absurd (hw2 j hj2).1 hj
  split
  · unfold writeSplit
    split <;> rename_i hph
    · have hno : ∀ k, ¬ s.atW2 k := fun k hk => by simpa [hph] using (hw2 k hk).2.2
      split <;> rename_i hr
      · exact hs.set rfl others ⟨(Port.enqueue_tx_ovf hr _ _).trans hp'.1, fun _ => .inr ⟨_, rfl, rfl, rfl⟩⟩
      · exact hs.of_ports_eq rfl fun j hj => absurd hj (hno j)
    · exact hs.set rfl others (Port.armTx_armed hp'.1)
    · have hno : ¬ s.atW2 s.cur := fun hk => by simpa [hph] using (hw2 _ hk).2.2
      exact hs.set rfl others ((hp'.mono (absurd · hno)).congr (q := p.markTxing) rfl rfl)
    · have hno : ¬ s.atW2 s.cur := fun hk => by simpa [hph] using (hw2 _ hk).2.2
      exact hs.set rfl others ((hp'.mono (absurd · hno)).congr (q := p.clearTxc) rfl rfl)
  · rename_i hsplit
    have hno : ∀ k, ¬ s.atW2 k := fun k hk => hsplit (hw2 k hk).2.1
    unfold writeAtomic
    split <;> rename_i hr
    · exact hs.set rfl others ⟨(Port.enqueue_tx_ovf hr _ _).trans hp'.1, fun _ => .inl rfl⟩
    · exact hs.of_ports_eq rfl fun j hj => absurd hj (hno j)

/-- The command that MAIN runs, held or freshly presented, keeps every port armed. -/
theorem exec_cmd_keeps_txArmed {w : CmdWord} {i : Instr} {s t : State} (hd : decode (.cmd w) = .ok i)
    (h : exec i s = .next t) (hs : s.txArmed)
    (hw2 : ∀ k, s.atW2 k → k = s.cur ∧ s.cfg.writeSplit = true ∧ s.pend = some ⟨s.cur, w, .w2⟩ ∧
      ∃ ninth byte, w = writeWord ninth byte) : t.txArmed := by
  rcases Classical.em (∃ ninth byte, i = .write ninth byte) with ⟨ninth, byte, rfl⟩ | hwrite
  · obtain rfl := decodeCmd_eq_write.mp hd
    refine exec_write_keeps_txArmed h hs fun k hk => ?_
    obtain ⟨hcur, hsplit, hpend, -⟩ := hw2 k hk
    exact ⟨hcur, hsplit, by simp [State.phaseOf, hpend]⟩
  · obtain ⟨v, hv⟩ := decode_cmd_encode hd
    refine exec_keeps_txArmed h hs (by simp [hv]) (fun ninth byte e => hwrite ⟨ninth, byte, e⟩) fun k hk => ?_
    obtain ⟨-, -, -, ninth, byte, rfl⟩ := hw2 k hk
    cases hd.symm.trans (decodeCmd_eq_write.mpr rfl)
    exact absurd ⟨ninth, byte, rfl⟩ hwrite

theorem exec_pend_of_not_cmd {i : Instr} {s t : State} (hi : ∀ w, encode i ≠ .cmd w) (h : exec i s = .next t) :
    t.pend = s.pend := by
  cases exec_pend h with
  | untouched _ hp _ => exact hp
  | completed w hw => exact absurd hw (hi w)
  | holds w ph hw => exact absurd hw (hi w)

/-- The operation of an agent's move keeps every port armed. -/
theorem Source.keeps_txArmed {m : Move} {i : Instr} {s s0 t : State} (src : Source s m i s0)
    (hm : m.inContract = true) (hinv : s.Inv) (hcfg : s0.cfg = s.cfg) (hpend : s0.pend = s.pend)
    (hs : s0.txArmed) (h : exec i s0 = .next t) : t.txArmed := by
  cases src with
  | held q i s0 hp hc ha hd =>
    refine exec_cmd_keeps_txArmed hd h hs fun k hk => ?_
    obtain ⟨hsplit, ninth, byte, hw⟩ := hinv.write_of_atW2 (hk.congr hpend.symm)
    cases hp.symm.trans hw
    exact ⟨hc.symm, hcfg ▸ hsplit, by rw [hpend, hc, hw], ninth, byte, rfl⟩
  | presented c i s0 hp hc ha hd =>
    exact exec_cmd_keeps_txArmed hd h hs fun k hk => absurd hk (State.not_atW2 (hpend.trans hp) k)
  | rxi s0 ha =>
    exact exec_keeps_txArmed h hs nofun nofun fun k hk => hk.congr (exec_pend_of_not_cmd (i := .rxi) nofun h)
  | txi s0 ha =>
    exact exec_keeps_txArmed h hs nofun nofun fun k hk => hk.congr (exec_pend_of_not_cmd (i := .txi) nofun h)
  | ring rb w i s0 ha hd => cases hm
  | func clock rate prefer s0 ha hc => cases hm

@[simp] theorem Port.periph_txie (p : Port) (a : PeriphAct) : (p.periph a).pr.txie = p.pr.txie := by
  cases a with
  | drive => rfl
  | load => simp only [Port.periph]; split <;> rfl
  | sent =>
    simp only [Port.periph]
    split
    · split <;> rfl
    · rfl
  | recv => simp only [Port.periph]; split <;> rfl

/-- A reserved command word was freshly presented: a held one decodes. -/
theorem State.Inv.pend_none_of_illegal {s : State} (hinv : s.Inv) {w : CmdWord} {r : Reject}
    (hd : decode (.cmd w) = .error r) (hw : (∃ q, s.pend = some q ∧ w = q.word) ∨ s.pend = none) :
    s.pend = none := by
  obtain ⟨-, -, -, -, hpend⟩ := hinv
  rcases hw with ⟨q, hq, rfl⟩ | hnone
  · obtain ⟨i, hi⟩ := Pending.decodes_of_legal (hpend q hq).2
    cases hd.symm.trans hi
  · exact hnone

theorem step_keeps_txArmed {s t : State} (hinv : s.Inv) (hc : s.inContract) (hs : s.txArmed)
    (h : step s = .next t) : t.txArmed := by
  cases step_kind h with
  | idle _ e => exact e ▸ hs
  | runs m rest i s0 hsched h0 src hx =>
    obtain ⟨hcfg, hports, -, hpend, -⟩ := h0
    have hs0 : s0.txArmed := hs.of_ports_eq hports fun _ hj => hj.congr hpend
    exact src.keeps_txArmed (hc m (by simp [hsched])) hinv hcfg hpend hs0 hx
  | illegal rest w r s0 p _ h0 hd hw hp e =>
    obtain ⟨-, hports, -, -⟩ := h0
    have hnone := hinv.pend_none_of_illegal hd
      (hw.imp (fun ⟨q, hq, hwq, _⟩ => ⟨q, hq, hwq⟩) fun hw => hw.1)
    subst e
    exact hs.of_ports_eq (by rw [State.respond_ports, State.ports_set_self hp, hports])
      fun j hj => absurd hj (State.not_atW2 hnone j)
  | still m rest s0 _ h0 _ e =>
    obtain ⟨-, hports, -, hpend, -⟩ := h0
    subst e
    exact hs.of_ports_eq hports fun _ hj => hj.congr hpend
  | periph k a rest p _ hp e =>
    subst e
    obtain ⟨-, htx, -⟩ := p.periph_rings a
    exact hs.set rfl (fun _ _ hj => hj.congr rfl)
      (((State.txArmed_iff.mp hs k p hp).mono fun hk => hk.congr rfl).congr htx (p.periph_txie a))
  | sameInstant k w rest cs p _ hpend _ hp _ _ e =>
    subst e
    obtain ⟨r, -, hports⟩ := rxiWithRead_ports { s with sched := rest, cur := k, out := {}, app := cs } p
    have hno := State.not_atW2 hpend
    exact hs.set hports (fun j _ hj => absurd hj (hno j))
      (((State.txArmed_iff.mp hs k p hp).mono (absurd · (hno k))).congr rfl rfl)

/-- A step takes the first move off the schedule. -/
theorem step_sched {s t : State} (h : step s = .next t) : t.sched = s.sched.tail := by
  cases step_kind h with
  | idle hsched e => subst e; simp [hsched]
  | runs m rest i s0 hsched h0 src hx =>
    obtain ⟨-, -, hrest, -⟩ := h0
    obtain ⟨⟨-, -, -, ht⟩, -⟩ := exec_effect hx
    rw [ht, hrest, hsched, List.tail_cons]
  | illegal rest w r s0 p hsched h0 _ _ _ e =>
    obtain ⟨-, -, hrest, -⟩ := h0
    rw [e, State.respond_sched, hrest, hsched, List.tail_cons]
  | still m rest s0 hsched h0 _ e =>
    obtain ⟨-, -, hrest, -⟩ := h0
    rw [e, State.noStep_sched, hrest, hsched, List.tail_cons]
  | periph k a rest p hsched _ e => rw [e, hsched, List.tail_cons]
  | sameInstant k w rest cs p hsched _ _ _ _ _ e => rw [e, rxiWithRead_sched, hsched, List.tail_cons]

/-- Settles O45: the schedule only gets shorter, and whatever kind of step it is, every port stays armed. -/
theorem transmitRingNeverOverflowsNorStrands : Obligations.TransmitRingNeverOverflowsNorStrands := by
  intro s t hinv hc hs h
  refine ⟨fun m hm => hc m ?_, step_keeps_txArmed hinv hc hs h⟩
  rw [step_sched h] at hm
  exact List.mem_of_mem_tail hm

/-! ### Occupancy (`10_state.md` R22, R23) -/

theorem Ring.occ_le {n : Nat} {r : Ring} (hn : 1 ≤ n) : r.occ n ≤ n - 1 :=
  Nat.le_sub_one_of_lt (Nat.mod_lt _ hn)

theorem Ring.occ_eq_zero_iff {n : Nat} {r : Ring} (hh : r.head < n) (ht : r.tail < n) :
    r.occ n = 0 ↔ r.empty = true := by
  rw [Ring.occ_eq hh ht, Ring.empty_true]
  split <;> omega

theorem Ring.occ_eq_pred_iff {n : Nat} {r : Ring} (hh : r.head < n) (ht : r.tail < n) :
    r.occ n = n - 1 ↔ r.full n = true := by
  rw [Ring.occ_eq hh ht, Ring.full_true, Ring.next_index hh]
  split <;> split <;> omega

@[simp] theorem Ring.held_length (n : Nat) (r : Ring) : (r.held n).length = r.occ n := by
  simp [Ring.held]

theorem Ring.held_getElem? {n k : Nat} {r : Ring} (hk : k < r.occ n) :
    (r.held n)[k]? = some (r.slot ((r.tail + k) % n)) := by
  simp [Ring.held, hk]

/-- Settles O13: the occupancy without the reduction (`Ring.occ_eq`), and 0 is not N - 1. -/
theorem occupancyCountsBetweenEmptyAndFull : Obligations.OccupancyCountsBetweenEmptyAndFull := by
  intro n r hn hh ht
  have hempty := Ring.occ_eq_zero_iff hh ht
  have hfull := Ring.occ_eq_pred_iff hh ht
  refine ⟨⟨rfl, Ring.occ_le (by omega)⟩, ⟨r.held_length n, fun _ => Ring.held_getElem?⟩, Ring.empty_true, hempty,
    Ring.full_true, hfull, ?_⟩
  rintro ⟨he, hf⟩
  have h0 := hempty.mpr he
  have h1 := hfull.mpr hf
  omega

/-! ### Canonical storage (log 6) -/

/-- Canonical storage lists exactly the indices that read as something else than an unlisted one. -/
theorem Memory.mem_iff_read {m : Memory} (h : m.wf) (c : Host.Cell) :
    c ∈ m ↔ m.read c.1 = c.2 ∧ c.2 ≠ Memory.blank := by
  obtain ⟨hs, hb⟩ := h
  induction m with
  | nil => exact ⟨nofun, fun ⟨h1, h2⟩ => absurd h1.symm h2⟩
  | cons x m ih =>
    obtain ⟨a, v⟩ := x
    obtain ⟨k, w⟩ := c
    rw [List.pairwise_cons] at hs
    have hrest := ih hs.2 fun c hc => hb c (List.mem_cons_of_mem _ hc)
    have hv : v ≠ Memory.blank := hb (a, v) List.mem_cons_self
    rw [List.mem_cons, Memory.read]
    by_cases hk : k = a
    · subst hk
      have hnot : (k, w) ∉ m := fun hc => Nat.lt_irrefl k (hs.1 _ hc)
      simp only [hnot, or_false, Prod.mk.injEq, true_and, if_true]
      exact ⟨fun e => ⟨e.symm, e ▸ hv⟩, fun e => e.1.symm⟩
    · simp only [Prod.mk.injEq, hk, false_and, false_or, if_false]
      exact hrest

/-- Settles O14: both list the same pairs, and each in the rising order of the indices. -/
theorem canonicalStorageIsDeterminedByReads : Obligations.CanonicalStorageIsDeterminedByReads := by
  intro m m' h h' hread
  have hmem : ∀ c, c ∈ m ↔ c ∈ m' := fun c => by
    rw [Memory.mem_iff_read h, Memory.mem_iff_read h', hread]
  have : Std.Irrefl (fun x y : Host.Cell => x.1 < y.1) := ⟨fun x => Nat.lt_irrefl x.1⟩
  have : Std.Antisymm (fun x y : Host.Cell => x.1 < y.1) :=
    ⟨fun x y hxy hyx => absurd hxy (Nat.lt_asymm hyx)⟩
  exact h.1.eq_of_mem_iff h'.1 hmem

/-! ### Every operation's effect on any port -/

/-- On every port an operation has one of its effects: `same` where it does not act. -/
theorem exec_portEffect {i : Instr} {s t : State} {k : Nat} {p q : Port} (h : exec i s = .next t)
    (hp : s.ports[k]? = some p) (hq : t.ports[k]? = some q) : PortEffect s.cfg p i q := by
  obtain ⟨-, e | ⟨p0, q0, hp0, e, he⟩⟩ := exec_effect h
  · rw [e, hp] at hq
    cases hq
    exact .same i
  · rw [e] at hq
    by_cases hk : s.cur = k
    · subst hk
      rw [List.getElem?_set_self (State.port?_lt hp0)] at hq
      cases hq
      cases hp.symm.trans hp0
      exact he
    · rw [List.getElem?_set_ne hk, hp] at hq
      cases hq
      exact .same i

/-- Why the flag of ring `rb` may go from 0 to 1, and from 1 to 0 (`10_state.md` R25). -/
structure OvfChange (c : Params) (p : Port) (i : Instr) (q : Port) (rb : RingSel) : Prop where
  set : (p.ring rb).ovf = false → (q.ring rb).ovf = true →
    ((rb = .rx ∧ i = .rxi) ∨ ∃ ninth byte, i = .push rb ninth byte) ∧ (p.ring rb).full (ringSize c rb) = true
  cleared : (p.ring rb).ovf = true → (q.ring rb).ovf = false →
    (((rb = .rx ∧ i = .read) ∨ (rb = .tx ∧ i = .txi) ∨ i = .pop rb) ∧ (p.ring rb).empty = false) ∨
      i = .clear rb ∨ ∃ rate line, i = .beginPort rate line

namespace OvfChange

variable {c : Params} {p q : Port} {i : Instr} {rb : RingSel}

theorem of_same (h : (q.ring rb).ovf = (p.ring rb).ovf) : OvfChange c p i q rb :=
  ⟨fun h0 h1 => by simp [h, h0] at h1, fun h1 h0 => by simp [h, h1] at h0⟩

theorem of_push (h : (q.ring rb).ovf = ((p.ring rb).ovf || (p.ring rb).full (ringSize c rb)))
    (hi : (rb = .rx ∧ i = .rxi) ∨ ∃ ninth byte, i = .push rb ninth byte) : OvfChange c p i q rb :=
  ⟨fun h0 h1 => ⟨hi, by simpa [h, h0] using h1⟩, fun h1 h0 => by simp [h, h1] at h0⟩

theorem of_pop (h : (q.ring rb).ovf = ((p.ring rb).ovf && (p.ring rb).empty))
    (hi : (rb = .rx ∧ i = .read) ∨ (rb = .tx ∧ i = .txi) ∨ i = .pop rb) : OvfChange c p i q rb :=
  ⟨fun h0 h1 => by simp [h, h0] at h1, fun h1 h0 => .inl ⟨hi, by simpa [h, h1] using h0⟩⟩

theorem of_clear (h : (q.ring rb).ovf = false) (hi : i = .clear rb ∨ ∃ rate line, i = .beginPort rate line) :
    OvfChange c p i q rb :=
  ⟨fun _ h1 => by simp [h] at h1, fun _ _ => .inr hi⟩

end OvfChange

theorem Port.ring_setRing_ne {rb rb' : RingSel} (h : rb ≠ rb') (p : Port) (r : Ring) :
    (p.setRing rb' r).ring rb = p.ring rb := by
  cases rb with
  | rx => cases rb' with
    | rx => exact absurd rfl h
    | tx => rfl
  | tx => cases rb' with
    | rx => rfl
    | tx => exact absurd rfl h

theorem Port.transmit_tx_ovf (c : Params) (p : Port) : (p.transmit c).tx.ovf = (p.tx.ovf && p.tx.empty) := by
  cases he : p.tx.empty
  · simp [Port.transmit_of_held he]
  · simp [Port.transmit_of_empty he]

theorem Port.transmit_rx (c : Params) (p : Port) : (p.transmit c).rx = p.rx := by
  cases he : p.tx.empty
  · simp [Port.transmit_of_held he]
  · simp [Port.transmit_of_empty he]

theorem PortEffect.ovfChange {c : Params} {p q : Port} {i : Instr} (e : PortEffect c p i q) (rb : RingSel) :
    OvfChange c p i q rb := by
  cases e with
  | same => exact .of_same rfl
  | push rb' ninth byte =>
    by_cases h : rb = rb'
    · subst h
      exact .of_push (by simp) (.inr ⟨ninth, byte, rfl⟩)
    · exact .of_same (by rw [Port.ring_setRing_ne h])
  | pop rb' =>
    by_cases h : rb = rb'
    · subst h
      exact .of_pop (by simp) (.inr (.inr rfl))
    · exact .of_same (by rw [Port.ring_setRing_ne h])
  | clear rb' =>
    by_cases h : rb = rb'
    · subst h
      exact .of_clear (by simp) (.inl rfl)
    · exact .of_same (by rw [Port.ring_setRing_ne h])
  | discard rb' =>
    by_cases h : rb = rb'
    · subst h
      exact .of_same (by simp)
    · exact .of_same (by rw [Port.ring_setRing_ne h])
  | begun rate line => exact .of_clear (by cases rb <;> rfl) (.inr ⟨rate, line, rfl⟩)
  | failed rate line => exact .of_clear (by cases rb <;> rfl) (.inr ⟨rate, line, rfl⟩)
  | ended => exact .of_same (by cases rb <;> rfl)
  | received =>
    rw [Port.receive_port]
    cases rb with
    | rx =>
      cases he : p.pr.err
      · exact .of_push (Ring.push_ovf ..) (.inl ⟨rfl, rfl⟩)
      · exact .of_same rfl
    | tx => exact .of_same rfl
  | transmitted =>
    cases rb with
    | rx => exact .of_same (congrArg Ring.ovf (p.transmit_rx c))
    | tx => exact .of_pop (p.transmit_tx_ovf c) (.inr (.inl ⟨rfl, rfl⟩))
  | written ninth byte _ hr =>
    cases rb with
    | rx => exact .of_same rfl
    | tx => exact .of_same (Port.enqueue_tx_ovf hr byte ninth)
  | enqueued ninth byte _ hr =>
    cases rb with
    | rx => exact .of_same rfl
    | tx => exact .of_same (Port.enqueue_tx_ovf hr byte ninth)
  | armed => exact .of_same (by cases rb <;> rfl)
  | marked => exact .of_same (by cases rb <;> rfl)
  | cleared => exact .of_same (by cases rb <;> rfl)
  | flushed => exact .of_same (by cases rb <;> rfl)
  | read =>
    cases rb with
    | rx => exact .of_pop (Ring.pop_ovf ..) (.inl ⟨rfl, rfl⟩)
    | tx => exact .of_same rfl

/-- Settles O47: the change of each ring's flag, effect by effect. -/
theorem overflowFlagIsSticky : Obligations.OverflowFlagIsSticky := by
  intro i s t p q h hp hq
  obtain ⟨⟨-, hcur, -⟩, -⟩ := exec_effect h
  have e : PortEffect s.cfg p i q := exec_portEffect h hp (hcur ▸ hq)
  have hrx := e.ovfChange .rx
  have htx := e.ovfChange .tx
  refine ⟨fun h0 h1 => ?_, fun h1 h0 => ?_, fun h0 h1 => ?_, fun h1 h0 => ?_⟩
  · simpa [Port.ring, ringSize] using hrx.set h0 h1
  · simpa [Port.ring, ringSize] using hrx.cleared h1 h0
  · simpa [Port.ring, ringSize] using htx.set h0 h1
  · simpa [Port.ring, ringSize] using htx.cleared h1 h0

/-! ### Who writes each register (`10_state.md` R26 to R28) -/

/-- The registers that operation `i` may have changed on a port it took from `p` to `q`: the "Written by"
column of R28, with R26 and R27, one field per row group. -/
structure RegisterFrame (i : Instr) (p q : Port) : Prop where
  config : (∀ r l, i ≠ .beginPort r l) →
    q.nine = p.nine ∧ q.pr.brh = p.pr.brh ∧ q.pr.brl = p.pr.brl ∧ q.pr.u2x = p.pr.u2x ∧ q.pr.line = p.pr.line
  txing : (∀ r l, i ≠ .beginPort r l) → i ≠ .flush → (∀ x b, i ≠ .write x b) → q.txing = p.txing
  enables : (∀ r l, i ≠ .beginPort r l) → i ≠ .endPort →
    q.pr.rxen = p.pr.rxen ∧ q.pr.txen = p.pr.txen ∧ q.pr.rxie = p.pr.rxie
  txie : (∀ r l, i ≠ .beginPort r l) → i ≠ .endPort → i ≠ .txi → (∀ x b, i ≠ .write x b) →
    q.pr.txie = p.pr.txie
  sendSide : i ≠ .txi →
    q.pr.txb8 = p.pr.txb8 ∧ q.pr.txdata = p.pr.txdata ∧ q.pr.dre = p.pr.dre ∧ q.ref.hold = p.ref.hold
  txc : (∀ x b, i ≠ .write x b) → q.pr.txc = p.pr.txc
  receiveFlags : i ≠ .rxi → q.pr.rxc = p.pr.rxc ∧ q.pr.err = p.pr.err
  untouched : q.pr.rxb8 = p.pr.rxb8 ∧ q.pr.rxdata = p.pr.rxdata ∧ q.ref.shift = p.ref.shift ∧
    q.ref.wireOut = p.ref.wireOut ∧ q.ref.wireIn = p.ref.wireIn
  neverSet : (q.pr.txc = true → p.pr.txc = true) ∧ (q.pr.dre = true → p.pr.dre = true) ∧
    (q.pr.rxc = true → p.pr.rxc = true) ∧ (q.pr.err = true → p.pr.err = true)

/-- An operation that moves bytes in the rings only. -/
theorem RegisterFrame.of_rings {i : Instr} {p q : Port} (hnine : q.nine = p.nine) (htxing : q.txing = p.txing)
    (hpr : q.pr = p.pr) (href : q.ref = p.ref) : RegisterFrame i p q := by
  constructor <;> simp [hnine, htxing, hpr, href]

theorem Port.restart_frame (p : Port) (rate : Nat) (line : Byte) :
    RegisterFrame (.beginPort rate line) p p.restart := by
  constructor <;> simp [Port.restart]

theorem Port.configure_frame (p : Port) (rate : Nat) (line : Byte) (d : Nat) (u2x : Bool) :
    RegisterFrame (.beginPort rate line) p (p.restart.configure d u2x line) := by
  constructor <;> simp [Port.restart, Port.configure]

theorem Port.shutDown_frame (p : Port) : RegisterFrame .endPort p p.shutDown := by
  constructor <;> simp [Port.shutDown]

theorem Port.receive_frame (c : Params) (p : Port) : RegisterFrame .rxi p (p.receive c).2 := by
  rw [Port.receive_port]
  constructor <;> simp [PeriphRegs.readRxData]

theorem Port.transmit_frame (c : Params) (p : Port) : RegisterFrame .txi p (p.transmit c) := by
  cases he : p.tx.empty
  · rw [Port.transmit_of_held he]
    constructor <;> simp
  · rw [Port.transmit_of_empty he]
    constructor <;> simp

/-- WRITE reaches `TXING`, `TXIE` and, to clear it, `TXC`. -/
theorem RegisterFrame.of_write {ninth : Bool} {byte : Byte} {p q : Port} {txie txc : Bool} (hnine : q.nine = p.nine)
    (hpr : q.pr = { p.pr with txie := txie, txc := txc }) (htxc : txc = true → p.pr.txc = true)
    (href : q.ref = p.ref) : RegisterFrame (.write ninth byte) p q := by
  constructor <;> simp [hnine, hpr, href]
  exact htxc

theorem PortEffect.registerFrame {c : Params} {p q : Port} {i : Instr} (e : PortEffect c p i q) :
    RegisterFrame i p q := by
  cases e with
  | same => exact .of_rings rfl rfl rfl rfl
  | push => exact .of_rings (by simp) (by simp) (by simp) (by simp)
  | pop => exact .of_rings (by simp) (by simp) (by simp) (by simp)
  | clear => exact .of_rings (by simp) (by simp) (by simp) (by simp)
  | discard => exact .of_rings (by simp) (by simp) (by simp) (by simp)
  | begun rate line d u2x => exact p.configure_frame rate line d u2x
  | failed rate line => exact p.restart_frame rate line
  | ended => exact p.shutDown_frame
  | received => exact p.receive_frame c
  | transmitted => exact p.transmit_frame c
  | written => exact .of_write (txie := true) (txc := false) rfl rfl nofun rfl
  | enqueued => exact .of_rings rfl rfl rfl rfl
  | armed => exact .of_write (txie := true) rfl rfl id rfl
  | marked => exact .of_write rfl rfl id rfl
  | cleared => exact .of_write (txc := false) rfl rfl nofun rfl
  | flushed => constructor <;> simp
  | read => exact .of_rings rfl rfl rfl rfl

/-- Settles O48: the registers each effect reaches. -/
theorem eachRegisterHasItsWriters : Obligations.EachRegisterHasItsWriters := by
  intro i s t k p q h hp hq
  have f := (exec_portEffect h hp hq).registerFrame
  exact ⟨f.config, f.txing, f.enables, f.txie, f.sendSide, f.txc, f.receiveFlags, f.untouched, f.neverSet⟩

/-! ### The event lines (`10_state.md` R30, `30_encoding.md` R76) -/

theorem PeriphRegs.eventWord_bit0 (pr : PeriphRegs) : pr.eventWord.getLsbD 0 = pr.rxIrq := by
  rw [PeriphRegs.eventWord, BitVec.getLsbD_append]
  simp

theorem PeriphRegs.eventWord_bit1 (pr : PeriphRegs) : pr.eventWord.getLsbD 1 = pr.txIrq := by
  rw [PeriphRegs.eventWord, BitVec.getLsbD_append]
  simp

theorem mem_eventHandlers_rxi (w : EventWord) : .rxi ∈ eventHandlers w ↔ w.getLsbD 0 = true := by
  simp [eventHandlers, selects_rxi]

theorem mem_eventHandlers_txi (w : EventWord) : .txi ∈ eventHandlers w ↔ w.getLsbD 1 = true := by
  simp [eventHandlers, selects_txi]

theorem exec_rxi_of_line_low {s : State} {p : Port} (hp : s.port? = some p) (h : p.pr.rxIrq = false) :
    exec .rxi s = .next s.noStep := by
  simp [exec, execRxi, hp, h]

theorem exec_txi_of_line_low {s : State} {p : Port} (hp : s.port? = some p) (h : p.pr.txIrq = false) :
    exec .txi s = .next s.noStep := by
  simp [exec, execTxi, hp, h]

/-- Settles O23: each bit of the event word is one line, and a handler whose line is 0 takes no step. -/
theorem eventLinesEnableTheHandlers : Obligations.EventLinesEnableTheHandlers := by
  refine ⟨fun pr => ⟨?_, ?_⟩, fun w => ⟨mem_eventHandlers_rxi w, mem_eventHandlers_txi w⟩, fun s p hp => ⟨?_, ?_⟩⟩
  · rw [PeriphRegs.eventWord_bit0, PeriphRegs.rxIrq, Bool.and_eq_true]
  · rw [PeriphRegs.eventWord_bit1, PeriphRegs.txIrq, Bool.and_eq_true]
  · rw [PeriphRegs.eventWord_bit0]
    exact exec_rxi_of_line_low hp
  · rw [PeriphRegs.eventWord_bit1]
    exact exec_txi_of_line_low hp

/-! ### Reset (`10_state.md` R35) -/

@[simp] theorem State.resetWith_port (c : Params) (u : Nat → PowerOn) (k : Nat) :
    (State.resetWith c u).ports[k]? = if k < c.nPorts then some (Port.reset (u k)) else none := by
  split <;> simp_all [State.resetWith]

theorem Port.reset_armed (u : PowerOn) (w2 : Prop) : (Port.reset u).Armed w2 := Port.armed_of_empty rfl rfl

/-- Both enables are 0, so both lines are. -/
theorem Port.reset_eventWord (u : PowerOn) : (Port.reset u).pr.eventWord = 0#2 := by
  have hrx : (Port.reset u).pr.rxIrq = false := by simp [PeriphRegs.rxIrq, Port.reset]
  have htx : (Port.reset u).pr.txIrq = false := by simp [PeriphRegs.txIrq, Port.reset]
  rw [PeriphRegs.eventWord, hrx, htx]
  rfl

theorem Port.reset_wf {c : Params} {u : PowerOn} (hc : c.wf)
    (hu : (u.rxData.wf ∧ u.rxData.below c.nRx) ∧ (u.rxBits.wf ∧ u.rxBits.below ((c.nRx + 7) / 8)) ∧
      (u.txData.wf ∧ u.txData.below c.nTx) ∧ (u.txBits.wf ∧ u.txBits.below ((c.nTx + 7) / 8))) :
    (Port.reset u).wf c := by
  obtain ⟨-, ⟨hrx, -⟩, ⟨htx, -⟩, -⟩ := hc
  obtain ⟨hrd, hrb, htd, htb⟩ := hu
  have h0rx : 0 < c.nRx := by omega
  have h0tx : 0 < c.nTx := by omega
  exact ⟨⟨⟨h0rx, h0rx⟩, hrd, hrb⟩, ⟨h0tx, h0tx⟩, htd, htb⟩

theorem State.resetWith_inv {c : Params} {u : Nat → PowerOn} (hc : c.wf) (hu : ∀ k, (Port.reset (u k)).wf c) :
    (State.resetWith c u).Inv := by
  refine ⟨hc, by simp [State.resetWith], hc.1, fun p hp => ?_, nofun⟩
  obtain ⟨k, -, rfl⟩ := List.mem_map.mp hp
  exact hu k

/-- Settles O42: every port is empty with admitted contents, and nothing is held. -/
theorem resetHasTheShape : Obligations.ResetHasTheShape := by
  refine ⟨fun c u hc hu => State.resetWith_inv hc fun k => Port.reset_wf hc (hu k), ?_⟩
  exact State.resetWith_inv (by decide) fun _ => Port.reset_wf (by decide) (by decide)

/-- Settles O43: port `k` is `Port.reset` of its unspecified values, none of which the statement reads. -/
theorem resetLeavesThePortIdle : Obligations.ResetLeavesThePortIdle := by
  intro c u k hk
  exact ⟨rfl, Port.reset (u k), by simp [hk], ⟨rfl, rfl, rfl⟩, ⟨rfl, rfl, rfl⟩, rfl, rfl, rfl, rfl, rfl, rfl,
    Port.reset_eventWord (u k)⟩

/-- Settles O46: every port is empty, and so is the schedule. -/
theorem resetIsArmed : Obligations.ResetIsArmed := by
  refine fun c u => ⟨State.txArmed_iff.mpr fun k p hp => ?_, nofun⟩
  simp only [State.resetWith_port, Option.ite_none_right_eq_some, Option.some.injEq] at hp
  obtain ⟨-, rfl⟩ := hp
  exact Port.reset_armed _ _

end Sys2Proof.Machine

/-! SUPPORT. The family of `20_memory.md`: what the two handlers and READ do when they meet on one port (R59,
R61), and which agent writes each ring variable (R58). -/

namespace Sys2Proof.Machine

/-! ### The handlers of one port commute (`20_memory.md` R59) -/

/-- What RXI's turn leaves of its port: the body where the line is 1, the port as it was where it is 0. -/
def Port.rxiTurn (c : Params) (p : Port) : Port := if p.pr.rxIrq then (p.receive c).2 else p

/-- What TXI's turn leaves of its port. -/
def Port.txiTurn (c : Params) (p : Port) : Port := if p.pr.txIrq then p.transmit c else p

theorem exec_rxi_of_line_high {s : State} {p : Port} (hp : s.port? = some p) (h : p.pr.rxIrq = true) :
    exec .rxi s = .next (s.commit (p.receive s.cfg).2 { reports := (p.receive s.cfg).1 }) := by
  simp [exec, execRxi, hp, h]

theorem exec_txi_of_line_high {s : State} {p : Port} (hp : s.port? = some p) (h : p.pr.txIrq = true) :
    exec .txi s = .next (s.commit (p.transmit s.cfg) {}) := by
  simp [exec, execTxi, hp, h]

theorem State.noStep_eq_commit {s : State} {p : Port} (hp : s.port? = some p) : s.noStep = s.commit p {} := by
  rw [State.noStep, State.commit, State.ports_set_self hp]

theorem exec_rxi_turn {s : State} {p : Port} (hp : s.port? = some p) :
    ∃ o, exec .rxi s = .next (s.commit (p.rxiTurn s.cfg) o) := by
  cases h : p.pr.rxIrq
  · exact ⟨_, by rw [exec_rxi_of_line_low hp h, State.noStep_eq_commit hp, Port.rxiTurn, h]; rfl⟩
  · exact ⟨_, by rw [exec_rxi_of_line_high hp h, Port.rxiTurn, h]; rfl⟩

theorem exec_txi_turn {s : State} {p : Port} (hp : s.port? = some p) :
    ∃ o, exec .txi s = .next (s.commit (p.txiTurn s.cfg) o) := by
  cases h : p.pr.txIrq
  · exact ⟨_, by rw [exec_txi_of_line_low hp h, State.noStep_eq_commit hp, Port.txiTurn, h]; rfl⟩
  · exact ⟨_, by rw [exec_txi_of_line_high hp h, Port.txiTurn, h]; rfl⟩

@[simp] theorem Port.receive_txIrq (c : Params) (p : Port) : (p.receive c).2.pr.txIrq = p.pr.txIrq := by
  rw [Port.receive_port]
  rfl

@[simp] theorem Port.transmit_rxIrq (c : Params) (p : Port) : (p.transmit c).pr.rxIrq = p.pr.rxIrq := by
  cases he : p.tx.empty
  · rw [Port.transmit_of_held he]; rfl
  · rw [Port.transmit_of_empty he]; rfl

/-- RXI's body reads and writes `RX` and the receive side of PR, TXI's body `TX` and the send side. -/
theorem Port.receive_transmit_comm (c : Params) (p : Port) :
    (p.receive c).2.transmit c = ((p.transmit c).receive c).2 := by
  have htx : (p.receive c).2.tx = p.tx := by rw [Port.receive_port]
  cases he : p.tx.empty
  · rw [Port.transmit_of_held (htx ▸ he), Port.transmit_of_held he, Port.receive_port, Port.receive_port]
    rfl
  · rw [Port.transmit_of_empty (htx ▸ he), Port.transmit_of_empty he, Port.receive_port, Port.receive_port]
    rfl

theorem Port.turns_comm (c : Params) (p : Port) : (p.rxiTurn c).txiTurn c = (p.txiTurn c).rxiTurn c := by
  cases hr : p.pr.rxIrq <;> cases ht : p.pr.txIrq
  case true.true => simp [Port.rxiTurn, Port.txiTurn, hr, ht, Port.receive_transmit_comm]
  all_goals simp [Port.rxiTurn, Port.txiTurn, hr, ht]

theorem State.commit_commit (s : State) (p q : Port) (o o' : Out) :
    (s.commit p o).commit q o' = s.commit q o' := by
  simp [State.commit]

/-- Settles O26: each order leaves the port after both turns, and the turns commute. -/
theorem handlersCommute : Obligations.HandlersCommute := by
  intro s p hp
  obtain ⟨oa, ha⟩ := exec_rxi_turn hp
  obtain ⟨ob, hb⟩ := exec_txi_turn (State.port?_commit hp (p.rxiTurn s.cfg) oa)
  obtain ⟨oc, hc⟩ := exec_txi_turn hp
  obtain ⟨od, hd⟩ := exec_rxi_turn (State.port?_commit hp (p.txiTurn s.cfg) oc)
  refine ⟨_, _, _, _, ha, hb, hc, hd, ?_⟩
  rw [State.commit_commit, State.commit_commit, State.commit_cfg, State.commit_cfg, Port.turns_comm]
  rfl

/-! ### RXI and READ in the same instant (`20_memory.md` R61) -/

theorem Ring.pop_fst (n : Nat) (r : Ring) :
    (r.pop n).1 = if r.head = r.tail then none else some (r.slot r.tail) := by
  cases he : r.empty
  · rw [Ring.pop_some he, if_neg (Ring.empty_false.mp he)]
  · rw [Ring.pop_empty he, if_pos (Ring.empty_true.mp he)]

theorem Ring.empty_of_full {n : Nat} {r : Ring} (hn : 2 ≤ n) (hh : r.head < n) (hf : r.full n = true) :
    r.empty = false := by
  rw [Ring.full_true, Ring.next_index hh] at hf
  rw [Ring.empty_false]
  split at hf <;> omega

/-- A POP makes no ring full that was not: if a POP that found a pair left the ring full, `head` and the old
`tail` would be one slot. -/
theorem Ring.pop_full_of_room {n : Nat} {r : Ring} (hh : r.head < n) (ht : r.tail < n) (hf : r.full n = false) :
    (r.pop n).2.full n = false := by
  cases he : r.empty
  · rw [Ring.pop_some he, Ring.full_false]
    intro (e : r.head + 1 ≡ r.tail + 1 [MOD n])
    exact Ring.empty_false.mp he ((e.add_right_cancel' 1).eq_of_lt_of_lt hh ht)
  · rw [Ring.pop_empty he]
    exact hf

/-- Outcome (c) of R61: the byte is dropped, the oldest is delivered and the flag is left set. -/
theorem Ring.pushWithPop_full {n : Nat} {r : Ring} (hf : r.full n = true) (he : r.empty = false) (byte : Byte)
    (ninth : Bool) : r.pushWithPop n byte ninth =
      (some (r.slot r.tail), false, { r with tail := (r.tail + 1) % n, ovf := true }) := by
  simp [Ring.pushWithPop, Ring.peek, hf, he]

/-- On a ring with room the same instant is the POP and then the PUSH. -/
theorem Ring.pushWithPop_room {n : Nat} {r : Ring} (hh : r.head < n) (ht : r.tail < n) (hf : r.full n = false)
    (byte : Byte) (ninth : Bool) :
    r.pushWithPop n byte ninth = ((r.pop n).1, (r.pop n).2.push n byte ninth) := by
  rw [Ring.push_room (Ring.pop_full_of_room hh ht hf)]
  cases he : r.empty
  · simp [Ring.pushWithPop, Ring.peek, hf, he, Ring.pop_some he, Ring.store, Ring.bitWrite]
  · simp [Ring.pushWithPop, Ring.peek, hf, he, Ring.pop_empty he, Ring.store, Ring.bitWrite]

/-- The port after READ (R183). -/
def Port.afterRead (c : Params) (p : Port) : Port := { p with rx := (p.rx.pop c.nRx).2 }

theorem exec_read_of_port {s : State} {p : Port} (hp : s.port? = some p) :
    exec .read s = .next (s.respond (p.afterRead s.cfg) (dataRsp (p.rx.pop s.cfg.nRx).1)) := by
  simp [exec, execRead, hp, Port.afterRead]

theorem rxiWithRead_full {s : State} {p : Port} (hn : 2 ≤ s.cfg.nRx) (hh : p.rx.head < s.cfg.nRx)
    (hf : p.rx.full s.cfg.nRx = true) (herr : p.pr.err = false) : rxiWithRead s p =
      s.respond { p with pr := p.pr.readRxData.2, rx := { p.rx with tail := (p.rx.tail + 1) % s.cfg.nRx, ovf := true } }
        (dataRsp (some (p.rx.slot p.rx.tail))) [.bufferOverflow .rx] := by
  simp [rxiWithRead, herr, Ring.pushWithPop_full hf (Ring.empty_of_full hn hh hf), State.respond]

/-- But for outcome (c), the same instant is READ and then RXI's body: an errored frame pushes nothing, and a
good one finds room in either place. -/
theorem rxiWithRead_eq_read_then_receive {s : State} {p : Port} (hh : p.rx.head < s.cfg.nRx)
    (ht : p.rx.tail < s.cfg.nRx) (h : ¬ (p.rx.full s.cfg.nRx = true ∧ p.pr.err = false)) : rxiWithRead s p =
      s.respond ((p.afterRead s.cfg).receive s.cfg).2 (dataRsp (p.rx.pop s.cfg.nRx).1)
        ((p.afterRead s.cfg).receive s.cfg).1 := by
  cases herr : p.pr.err
  · have hf : p.rx.full s.cfg.nRx = false := by simpa [herr] using h
    simp [rxiWithRead, herr, Ring.pushWithPop_room hh ht hf, Ring.push_room (Ring.pop_full_of_room hh ht hf),
      State.respond, Port.receive, Port.afterRead, PeriphRegs.readRxData]
  · simp [rxiWithRead, herr, State.respond, Port.receive, Port.afterRead]

theorem Port.receive_reports_of_room {c : Params} {p : Port}
    (h : p.pr.err = false → p.rx.full c.nRx = false) :
    (p.receive c).1 = if p.pr.err then [.frameParityError] else [] := by
  cases herr : p.pr.err
  · simp [Port.receive, herr, Ring.push_room (h herr)]
  · simp [Port.receive, herr]

theorem step_rxi_of_line_high {s : State} {k : Nat} {p : Port} {rest : List Move} (hs : s.sched = .rxi k :: rest)
    (hp : s.ports[k]? = some p) (hi : p.pr.rxIrq = true) : step s =
      .next (State.commit { s with sched := rest, out := {}, cur := k } (p.receive s.cfg).2
        { reports := (p.receive s.cfg).1 }) := by
  rw [step_of_sched_cons hs]
  exact exec_rxi_of_line_high hp hi

/-- The state in which the READ at the head of the stream is attempted on port `k`. -/
def State.presenting (s : State) (k : Nat) (cs : List AppCmd) (rest : List Move) : State :=
  { s with sched := rest, out := {}, cur := k, app := cs }

section

variable {s : State} {k : Nat} {p : Port} {w : CmdWord} {cs : List AppCmd} {rest : List Move}
variable (hpend : s.pend = none) (happ : s.app = ⟨k, w⟩ :: cs) (hd : decode (.cmd w) = .ok .read)
variable (hp : s.ports[k]? = some p)
include hpend happ hd hp

theorem step_main_read (hs : s.sched = .main :: rest) : step s =
    .next ((s.presenting k cs rest).respond (p.afterRead s.cfg) (dataRsp (p.rx.pop s.cfg.nRx).1)) := by
  rw [step_of_sched_cons hs]
  exact (stepMain_of_presented (s := { s with sched := rest, out := {} }) hpend happ hd).trans
    (exec_read_of_port (s := s.presenting k cs rest) hp)

theorem step_rxiWithRead (hi : p.pr.rxIrq = true) (hs : s.sched = .rxiWithRead k :: rest) : step s =
    .next (rxiWithRead (s.presenting k cs rest) p) := by
  rw [step_of_sched_cons hs]
  simp [stepMove, stepRxiWithRead, State.onPort, State.port?, State.presenting, hp, hpend, happ, hd, hi]

end

/-- Settles O40: a full ring with a good frame is outcome (c); every other case is READ and then RXI. -/
theorem sameInstantHasThreeOutcomes : Obligations.SameInstantHasThreeOutcomes := by
  intro s k p w cs rest hinv hpend happ hd hp hi hs
  obtain ⟨⟨-, ⟨hn, -⟩, -⟩, -, -, hports, -⟩ := hinv
  obtain ⟨⟨⟨hh, ht⟩, -⟩, -⟩ : p.wf s.cfg := PortsWf.get hports hp
  have hsame := step_rxiWithRead hpend happ hd hp hi hs
  refine ⟨fun hf herr => ⟨_, hsame, ?_⟩, fun h => ?_⟩
  · rw [rxiWithRead_full (s := s.presenting k cs rest) hn hh hf herr]
    exact ⟨rfl, rfl, rfl, rfl, rfl, rfl⟩
  · rw [rxiWithRead_eq_read_then_receive (s := s.presenting k cs rest) hh ht h] at hsame
    have hread := step_main_read (s := { s with sched := .main :: .rxi k :: rest }) hpend happ hd hp rfl
    have hq : ((s.presenting k cs (.rxi k :: rest)).respond (p.afterRead s.cfg)
        (dataRsp (p.rx.pop s.cfg.nRx).1)).ports[k]? = some (p.afterRead s.cfg) :=
      State.port?_respond (s := s.presenting k cs (.rxi k :: rest)) hp _ _ _
    have hrxi := step_rxi_of_line_high rfl hq hi
    have hroom : p.pr.err = false → (p.afterRead s.cfg).rx.full s.cfg.nRx = false := fun herr =>
      Ring.pop_full_of_room hh ht (by simpa [herr] using h)
    refine ⟨_, _, _, hsame, hrxi, ?_, rfl, rfl, rfl, ?_, ?_, .inr ⟨hread, rfl, rfl⟩⟩
    · exact List.set_set ..
    · rw [State.respond_out, Ring.pop_fst]
    · exact Port.receive_reports_of_room hroom

/-! ### Who writes each ring variable (`20_memory.md` R58) -/

@[simp] theorem Ring.push_tail (n : Nat) (r : Ring) (byte : Byte) (ninth : Bool) :
    (r.push n byte ninth).2.tail = r.tail := by
  cases hf : r.full n
  · simp [Ring.push_room hf]
  · simp [Ring.push_full hf]

/-- A POP leaves the producer's variables. -/
theorem Ring.pop_producer (n : Nat) (r : Ring) :
    (r.pop n).2.head = r.head ∧ (r.pop n).2.data = r.data ∧ (r.pop n).2.bits = r.bits := by
  cases he : r.empty
  · simp [Ring.pop_some he]
  · simp [Ring.pop_empty he]

theorem Port.transmit_tx_producer (c : Params) (p : Port) : (p.transmit c).tx.head = p.tx.head ∧
    (p.transmit c).tx.data = p.tx.data ∧ (p.transmit c).tx.bits = p.tx.bits := by
  cases he : p.tx.empty
  · simp [Port.transmit_of_held he]
  · simp [Port.transmit_of_empty he]

/-- The ring variables that operation `i` may have changed on a port it took from `p` to `q`: R58, one field
per group of variables with the same owner. -/
structure RingVariableFrame (i : Instr) (p q : Port) : Prop where
  rxProducer : i ≠ .rxi → q.rx.head = p.rx.head ∧ q.rx.data = p.rx.data ∧ q.rx.bits = p.rx.bits
  rxTail : i ≠ .read → i ≠ .endPort → q.rx.tail = p.rx.tail
  rxOvf : i ≠ .rxi → i ≠ .read → q.rx.ovf = p.rx.ovf
  txProducer : (∀ x b, i ≠ .write x b) →
    q.tx.head = p.tx.head ∧ q.tx.data = p.tx.data ∧ q.tx.bits = p.tx.bits
  txConsumer : i ≠ .txi → q.tx.tail = p.tx.tail ∧ q.tx.ovf = p.tx.ovf

namespace RingVariableFrame

variable {c : Params} {i : Instr} {p q : Port}

theorem of_same (hrx : q.rx = p.rx) (htx : q.tx = p.tx) : RingVariableFrame i p q := by
  constructor <;> simp [hrx, htx]

theorem of_receive : RingVariableFrame .rxi p (p.receive c).2 := by
  rw [Port.receive_port]
  constructor <;> simp [apply_ite Ring.tail]

theorem of_transmit : RingVariableFrame .txi p (p.transmit c) := by
  constructor <;> simp [Port.transmit_rx, Port.transmit_tx_producer]

theorem of_read : RingVariableFrame .read p (p.afterRead c) := by
  constructor <;> simp [Port.afterRead, Ring.pop_producer]

theorem of_shutDown : RingVariableFrame .endPort p p.shutDown := by
  constructor <;> simp [Port.shutDown]

/-- The PUSH of a WRITE; what else WRITE does is outside the rings. -/
theorem of_enqueue {ninth : Bool} {byte : Byte} (h : p.writeReady c = true) (hrx : q.rx = p.rx)
    (htx : q.tx = (p.enqueue c byte ninth).tx) : RingVariableFrame (.write ninth byte) p q := by
  have hovf : q.tx.ovf = p.tx.ovf := htx ▸ Port.enqueue_tx_ovf h byte ninth
  have htail : q.tx.tail = p.tx.tail := htx ▸ Ring.push_tail ..
  constructor <;> simp [hrx, htail, hovf]

end RingVariableFrame

theorem PortEffect.ringVariableFrame {c : Params} {p q : Port} {i : Instr} (e : PortEffect c p i q)
    (hring : ∀ w rb, encode i ≠ .ring rb w) (hbegin : ∀ r l, i ≠ .beginPort r l) : RingVariableFrame i p q := by
  cases e with
  | push => exact absurd rfl (hring _ _)
  | pop => exact absurd rfl (hring _ _)
  | clear => exact absurd rfl (hring _ _)
  | discard => exact absurd rfl (hring _ _)
  | begun => exact absurd rfl (hbegin _ _)
  | failed => exact absurd rfl (hbegin _ _)
  | same => exact .of_same rfl rfl
  | ended => exact .of_shutDown
  | received => exact .of_receive
  | transmitted => exact .of_transmit
  | written _ _ _ h => exact .of_enqueue h rfl rfl
  | enqueued _ _ _ h => exact .of_enqueue h rfl rfl
  | armed => exact .of_same rfl rfl
  | marked => exact .of_same rfl rfl
  | cleared => exact .of_same rfl rfl
  | flushed => exact .of_same rfl rfl
  | read => exact .of_read

/-- Settles O49: the ring variables each effect reaches. -/
theorem eachRingVariableHasItsWriters : Obligations.EachRingVariableHasItsWriters := by
  intro i s t k p q h hp hq hring hbegin
  have f := (exec_portEffect h hp hq).ringVariableFrame hring hbegin
  exact ⟨f.rxProducer, f.rxTail, f.rxOvf, f.txProducer, f.txConsumer⟩

end Sys2Proof.Machine

/-! SUPPORT. The family of `30_encoding.md`: what a reserved request word does (R75, R77), and how a held
command goes on (R78). -/

namespace Sys2Proof.Machine

/-! ### The words that match no row (`30_encoding.md` R75, R77) -/

theorem selects_eq_true_iff {n : Nat} (w m v : BitVec n) : selects w m v = true ↔ w &&& m = v := beq_iff_eq

/-- A CMD word is rejected exactly when none of the eight CMD rows selects it. -/
theorem decode_cmd_error_iff (w : CmdWord) : (∃ e, decode (.cmd w) = .error e) ↔
    (w &&& 0xFF0000000000#48 ≠ 0x100000000000#48 ∧ w ≠ 0x200000000000#48 ∧
      w &&& 0xFFFFFFFFFE00#48 ≠ 0x300000000000#48 ∧ w ≠ 0x400000000000#48 ∧ w ≠ 0x500000000000#48 ∧
      w ≠ 0x600000000000#48 ∧ w ≠ 0x700000000000#48 ∧ w ≠ 0x800000000000#48) := by
  simp only [decode, decodeCmd, selects_wholeCmd]
  simp only [selects_eq_true_iff]
  constructor
  · rintro ⟨e, h⟩
    split_ifs at h with hbegin hend hwrite hflush hread hpeekc havailable hoverflow
    exact ⟨hbegin, hend, hwrite, hflush, hread, hpeekc, havailable, hoverflow⟩
  · rintro ⟨hbegin, hend, hwrite, hflush, hread, hpeekc, havailable, hoverflow⟩
    exact ⟨rejectCmd w, by simp only [*, if_false]⟩

/-- The ROP codes 0 and 7 stand in no row. -/
theorem decodeRop_of_unused_code {w : RopWord} (h : w.extractLsb' 9 3 = 0#3 ∨ w.extractLsb' 9 3 = 7#3)
    (rb : RingSel) : decodeRop rb w = .error (rejectRop w) := by
  have hpush : ¬ selects w 0xE00#12 0x200#12 = true := fun hs => by
    simp [(selects_push w).mp hs] at h
  have hwhole : ∀ v : RopWord, ¬ (v.extractLsb' 9 3 = 0#3 ∨ v.extractLsb' 9 3 = 7#3) →
      ¬ selects w 0xFFF#12 v = true := fun v hv hs => hv ((selects_wholeRop w v).mp hs ▸ h)
  rw [decodeRop, if_neg hpush, if_neg (hwhole _ (by decide)), if_neg (hwhole _ (by decide)),
    if_neg (hwhole _ (by decide)), if_neg (hwhole _ (by decide)), if_neg (hwhole _ (by decide))]

theorem decode_ring_of_code_zero {w : RopWord} (h : w.extractLsb' 9 3 = 0#3) (rb : RingSel) :
    decode (.ring rb w) = .error .ropIdle := by
  rw [decode, decodeRop_of_unused_code (.inl h), rejectRop, if_pos h]

theorem decode_ring_of_code_seven {w : RopWord} (h : w.extractLsb' 9 3 = 7#3) (rb : RingSel) :
    decode (.ring rb w) = .error .ropReserved := by
  rw [decode, decodeRop_of_unused_code (.inr h), rejectRop, if_neg (by rw [h]; decide)]

/-! ### What a reserved word does -/

/-- A response that gives back the port as it was, with nothing held before, shows on the outputs only. -/
theorem State.respond_self {s : State} {p : Port} (hp : s.port? = some p) (hpend : s.pend = none)
    (rsp : RspWord) (reps : List Condition) :
    s.respond p rsp reps = { s with out := { rsp := some rsp, reports := reps } } := by
  rw [State.respond, State.commit, State.ports_set_self hp, ← hpend]

theorem illegalCommand_of_port {s : State} (hk : s.cur < s.ports.length) (hpend : s.pend = none)
    (w : CmdWord) : illegalCommand w s =
      .next { s with out := { rsp := some 0x30000#18, reports := [.illegalCommand w] } } := by
  have hp : s.port? = some s.ports[s.cur] := List.getElem?_eq_getElem hk
  have hrsp : rspWord .illegal 0#16 = 0x30000#18 := by decide
  rw [illegalCommand, State.onPort_some _ hp, State.respond_self hp hpend, hrsp]

theorem stepMain_of_reserved {s : State} {c : AppCmd} {cs : List AppCmd} {e : Reject} (hp : s.pend = none)
    (ha : s.app = c :: cs) (hd : decode (.cmd c.word) = .error e) :
    stepMain s = illegalCommand c.word { s with cur := c.port, app := cs } := by
  simp [stepMain, hp, ha, runCommand, hd]

theorem stepRing_of_idle {s : State} {rb : RingSel} {w : RopWord} (hk : s.cur < s.ports.length)
    (hd : decode (.ring rb w) = .error .ropIdle) : stepRing rb w s = .next s.noStep := by
  have hp : s.port? = some s.ports[s.cur] := List.getElem?_eq_getElem hk
  simp [stepRing, hd, State.onPort_some _ hp]

theorem stepRing_of_reserved {rb : RingSel} {w : RopWord} (hd : decode (.ring rb w) = .error .ropReserved)
    (s : State) : stepRing rb w s = .refused (.reservedRop w) := by
  simp [stepRing, hd]

/-- Settles O3: which words no row selects, and what the move that meets such a word does. -/
theorem reservedWordsHaveNoEffect : Obligations.ReservedWordsHaveNoEffect := by
  refine ⟨decode_cmd_error_iff, ?_, ?_, ?_, by decide, by decide⟩
  · intro s k w cs rest e hs hpend happ hk hd
    rw [step_of_sched_cons hs, stepMove,
      stepMain_of_reserved (s := { s with sched := rest, out := {} }) hpend happ hd]
    exact illegalCommand_of_port (s := { s with sched := rest, out := {}, cur := k, app := cs }) hk hpend w
  · intro s k rb w rest hs hk hcode
    rw [step_of_sched_cons hs]
    exact stepRing_of_idle hk (decode_ring_of_code_zero hcode rb)
  · intro s k rb w rest hs hcode
    rw [step_of_sched_cons hs]
    exact stepRing_of_reserved (decode_ring_of_code_seven hcode rb) _

/-! ### How a held command goes on (`30_encoding.md` R78, `45_transport.md` R181) -/

/-- A command word that decodes is the encoding of what it decodes to. -/
theorem encode_of_decode_cmd {w : CmdWord} {i : Instr} (h : decode (.cmd w) = .ok i) : encode i = .cmd w := by
  have hwriteRow : ∀ x b, i = .write x b → encode i = .cmd w := by
    rintro x b rfl
    rw [decodeCmd_eq_write.mp h, encode]
  simp only [decode, decodeCmd, selects_wholeCmd] at h
  split_ifs at h with hbegin hend hwrite hflush hread hpeekc havailable hoverflow <;> cases h
  · conv_rhs => rw [cmd_fields_begin w, (selects_begin w).mp hbegin]
    rw [encode, beginWord, BitVec.ofNat_toNat, BitVec.setWidth_eq]
    rfl
  · rw [hend]; rfl
  · exact hwriteRow _ _ rfl
  · rw [hflush]; rfl
  · rw [hread]; rfl
  · rw [hpeekc]; rfl
  · rw [havailable]; rfl
  · rw [hoverflow]; rfl

theorem State.phaseOf_held {s : State} {q : Pending} (hpend : s.pend = some q) (hcur : s.cur = q.port) :
    s.phaseOf q.word = q.phase := by
  simp [State.phaseOf, hpend, hcur]

/-- A held command that is not a WRITE stands at its first micro-step. -/
theorem Pending.phase_of_legal {c : Params} {q : Pending} {i : Instr} (h : q.legal c = true)
    (hd : decode (.cmd q.word) = .ok i) (hi : ∀ x b, i ≠ .write x b) : q.phase = .w1 := by
  by_contra hph
  obtain ⟨-, x, b, hw⟩ := Pending.write_of_legal h hph
  exact hi x b (Except.ok.inj (hd.symm.trans (decodeCmd_eq_write.mpr hw)))

/-- Where WRITE is atomic, every held command stands at its first micro-step. -/
theorem Pending.phase_of_not_split {c : Params} {q : Pending} (h : q.legal c = true)
    (hw : c.writeSplit = false) : q.phase = .w1 := by
  by_contra hph
  simp [(Pending.write_of_legal h hph).1] at hw

/-- How an attempt can leave the held command `q` that decodes to `i`, under the parameters `c`. -/
inductive HeldOutcome (c : Params) (q : Pending) (i : Instr) (t : State) : Prop where
  | stays (hp : t.pend = some q)
  | movesOn (ph : WPhase) (hph : q.phase.next = some ph) (hp : t.pend = some { q with phase := ph })
  | completes (hp : t.pend = none) (hc : t.cur = q.port) (hr : ∃ rsp, t.out.rsp = some rsp)
      (hw : c.writeSplit = true → ∀ x b, i = .write x b → q.phase = .w4)

/-- An attempt at the held command leaves it, moves it on by one micro-step, or completes it. -/
theorem exec_heldOutcome {i : Instr} {s t : State} {q : Pending} (h : exec i s = .next t)
    (hpend : s.pend = some q) (hcur : s.cur = q.port) (hlegal : q.legal s.cfg = true)
    (hd : decode (.cmd q.word) = .ok i) : HeldOutcome s.cfg q i t := by
  have hphase := State.phaseOf_held hpend hcur
  have henc := encode_of_decode_cmd hd
  cases exec_pend h with
  | untouched hi _ _ => exact absurd henc (hi _)
  | completed w hi hp rsp hr hg =>
    cases henc.symm.trans hi
    obtain ⟨⟨-, htcur, -⟩, -⟩ := exec_effect h
    exact .completes hp (htcur.trans hcur) ⟨rsp, hr⟩ fun hs x b e => hphase.symm.trans (hg x b e hs)
  | holds w ph hi hp hr hg =>
    cases henc.symm.trans hi
    rw [hcur] at hp
    have atW1 : q.phase = .w1 → ph = .w1 → HeldOutcome s.cfg q i t := fun hq hph =>
      .stays (by rw [hp, hph, ← hq])
    rw [hphase] at hg
    rcases hg with ⟨rfl, hph⟩ | ⟨rfl, hph⟩ | ⟨x, b, rfl, ⟨hs, hph⟩ | ⟨hs, ⟨hq, hph⟩ | hnext⟩⟩
    · exact atW1 (Pending.phase_of_legal hlegal hd nofun) hph
    · exact atW1 (Pending.phase_of_legal hlegal hd nofun) hph
    · exact atW1 (Pending.phase_of_not_split hlegal hs) hph
    · exact atW1 hq hph
    · exact .movesOn ph hnext hp

/-- With a command held, a move's operation is that command, attempted by MAIN on its port, or it is no
command at all. -/
theorem Source.held_or_not_cmd {s s0 : State} {m : Move} {i : Instr} (src : Source s m i s0) {q : Pending}
    (hpend : s.pend = some q) : s0.app = s.app ∧
      ((m = .main ∧ s0.cur = q.port ∧ decode (.cmd q.word) = .ok i) ∨ ∀ w, encode i ≠ .cmd w) := by
  cases src with
  | held q' i s0 hp hc ha hd =>
    cases hpend.symm.trans hp
    exact ⟨ha, .inl ⟨rfl, hc, hd⟩⟩
  | presented c i s0 hp hc ha hd => cases hpend.symm.trans hp
  | rxi s0 ha => exact ⟨ha, .inr nofun⟩
  | txi s0 ha => exact ⟨ha, .inr nofun⟩
  | ring rb w i s0 ha hd =>
    obtain ⟨v, hv⟩ := decode_ring_encode hd
    exact ⟨ha, .inr (by simp [hv])⟩
  | func clock rate prefer s0 ha hc => exact ⟨ha, .inr nofun⟩

/-- Settles O36: only MAIN's attempt at the held command reaches `PEND`; every other kind of step leaves it, or
needs that nothing is held. -/
theorem heldCommandIsNeverWithdrawn : Obligations.HeldCommandIsNeverWithdrawn := by
  intro s t q hinv hpend h
  have hlegal : q.legal s.cfg = true := by
    obtain ⟨-, -, -, -, hheld⟩ := hinv
    exact (hheld q hpend).2
  cases step_kind h with
  | idle _ e => subst e; exact ⟨rfl, .inl hpend⟩
  | runs m rest i s0 hs h0 src hx =>
    obtain ⟨hcfg, -, -, hp0, -⟩ := h0
    obtain ⟨⟨-, -, happ, -⟩, -⟩ := exec_effect hx
    obtain ⟨happ0, ⟨rfl, hcur, hd⟩ | hi⟩ := src.held_or_not_cmd hpend
    · refine ⟨happ.trans happ0, ?_⟩
      have hmain : s.sched.head? = some .main := by rw [hs]; rfl
      cases exec_heldOutcome hx (hp0.trans hpend) hcur (hcfg ▸ hlegal) hd with
      | stays hp => exact .inl hp
      | movesOn ph hph hp => exact .inr ⟨hmain, .inl ⟨ph, hph, hp⟩⟩
      | completes hp hc hr hw =>
        refine .inr ⟨hmain, .inr ⟨hp, hc, hr, fun hsplit x b hd' => ?_⟩⟩
        exact hw (hcfg ▸ hsplit) x b (Except.ok.inj (hd.symm.trans hd'))
    · exact ⟨happ.trans happ0, .inl ((exec_pend_of_not_cmd hi hx).trans (hp0.trans hpend))⟩
  | illegal rest w r s0 p _ _ hd hw _ _ =>
    have hnone := hinv.pend_none_of_illegal hd
      (hw.imp (fun ⟨q', hq, hwq, _⟩ => ⟨q', hq, hwq⟩) fun hw => hw.1)
    cases hpend.symm.trans hnone
  | still m rest s0 _ h0 _ e =>
    obtain ⟨-, -, -, hp0, happ0⟩ := h0
    exact e ▸ ⟨happ0, .inl (hp0.trans hpend)⟩
  | periph k a rest p _ _ e => subst e; exact ⟨rfl, .inl hpend⟩
  | sameInstant k w rest cs p _ hnone _ _ _ _ _ => cases hpend.symm.trans hnone

end Sys2Proof.Machine

/-! SUPPORT. The family of `41_ringbuffer.md`: what each ring primitive answers and leaves on its port (R101 to
R106), and a ring as a bounded queue (R107). -/

namespace Sys2Proof.Machine

/-! ### The primitives on a port that exists, one equation each -/

theorem decode_ring_push {w : RopWord} (h : w &&& 0xE00#12 = 0x200#12) (rb : RingSel) :
    decode (.ring rb w) = .ok (.push rb (w.getLsbD 8) (w.extractLsb' 0 8)) := by
  rw [decode, decodeRop, if_pos ((selects_eq_true_iff _ _ _).mpr h)]

section
variable {s : State} {p : Port} (hp : s.port? = some p) (rb : RingSel)
include hp

/-- Committing the port that was read shows on the outputs only. -/
theorem State.commit_self (o : Out) : s.commit p o = { s with out := o } := by
  rw [State.commit, State.ports_set_self hp]

theorem exec_push_of_port (ninth : Bool) (byte : Byte) : exec (.push rb ninth byte) s =
    .next (s.commit (p.setRing rb ((p.ring rb).push (ringSize s.cfg rb) byte ninth).2)
      { ring := some (pushResult ((p.ring rb).push (ringSize s.cfg rb) byte ninth).1),
        reports := pushReports rb ((p.ring rb).push (ringSize s.cfg rb) byte ninth).1 }) :=
  State.onPort_some _ hp

theorem exec_pop_of_port : exec (.pop rb) s =
    .next (s.commit (p.setRing rb ((p.ring rb).pop (ringSize s.cfg rb)).2)
      { ring := some (pairResult ((p.ring rb).pop (ringSize s.cfg rb)).1) }) :=
  State.onPort_some _ hp

theorem exec_peek_of_port : exec (.peek rb) s =
    .next { s with out := { ring := some (pairResult (p.ring rb).peek) } } :=
  (State.onPort_some _ hp).trans (congrArg _ (State.commit_self hp _))

theorem exec_avail_of_port : exec (.avail rb) s =
    .next { s with out := { ring := some (.count ((p.ring rb).occ (ringSize s.cfg rb))) } } :=
  (State.onPort_some _ hp).trans (congrArg _ (State.commit_self hp _))

theorem exec_clear_of_port : exec (.clear rb) s =
    .next (s.commit (p.setRing rb (p.ring rb).clear) { ring := some .done }) :=
  State.onPort_some _ hp

theorem exec_discard_of_port : exec (.discard rb) s =
    .next (s.commit (p.setRing rb (p.ring rb).discard) { ring := some .done }) :=
  State.onPort_some _ hp

end

/-! ### What PEEK answers and what PUSH stores (`41_ringbuffer.md` R101, R103) -/

section
variable {n : Nat} {r : Ring}

theorem Ring.peek_empty (h : r.empty = true) : r.peek = none := by simp [Ring.peek, h]

theorem Ring.peek_some (h : r.empty = false) : r.peek = some (r.slot r.tail) := by simp [Ring.peek, h]

theorem Ring.pop_fst_eq_peek (n : Nat) (r : Ring) : (r.pop n).1 = r.peek := by
  cases he : r.empty
  · rw [Ring.pop_some he, Ring.peek_some he]
  · rw [Ring.pop_empty he, Ring.peek_empty he]

/-- A PUSH that finds room leaves what `Ring.Appended` says, on canonical storage. -/
theorem Ring.store_appended (hd : r.data.wf) (hb : r.bits.wf) (byte : Byte) (ninth : Bool) :
    r.Appended n byte ninth (r.store n byte ninth) where
  head := rfl
  tail := rfl
  ovf := rfl
  stored := by rw [Ring.store_slot hd hb, if_pos rfl]
  others i hi := by rw [Ring.store_slot hd hb, if_neg hi]
  canonical := ⟨Memory.write_keeps_wf hd _ _, Memory.write_keeps_wf hb _ _⟩

/-! ### A ring as a bounded queue (`41_ringbuffer.md` R107, `10_state.md` R23) -/

theorem Ring.held_length_eq_pred_iff (h : r.wf n) : (r.held n).length = n - 1 ↔ r.full n = true := by
  obtain ⟨⟨hh, ht⟩, -⟩ := h
  rw [Ring.held_length, Ring.occ_eq_pred_iff hh ht]

theorem Ring.held_eq_nil_iff (h : r.wf n) : r.held n = [] ↔ r.empty = true := by
  obtain ⟨⟨hh, ht⟩, -⟩ := h
  rw [← List.length_eq_zero_iff, Ring.held_length, Ring.occ_eq_zero_iff hh ht]

/-- A POP takes the first of the bytes held, and clears the flag. -/
theorem Ring.pop_of_held_cons (h : r.wf n) {a : Byte × Bool} {l : List (Byte × Bool)} (hl : r.held n = a :: l) :
    (r.pop n).1 = some a ∧ (r.pop n).2.held n = l ∧ (r.pop n).2.ovf = false := by
  have he : r.empty = false := by
    rw [← Bool.not_eq_true, ← Ring.held_eq_nil_iff h, hl]
    exact List.cons_ne_nil a l
  obtain ⟨⟨hh, ht⟩, -⟩ := h
  obtain ⟨rfl, rfl⟩ := List.cons_eq_cons.mp (hl.symm.trans (Ring.held_cons hh ht he false))
  rw [Ring.pop_some he]
  exact ⟨rfl, rfl, rfl⟩

/-- Popping every byte held returns them oldest first and leaves the ring empty. -/
theorem Ring.popMany_of_held (h : r.wf n) {l : List (Byte × Bool)} (hl : r.held n = l) :
    (r.popMany n l.length).1 = l.map some ∧ (r.popMany n l.length).2.empty = true := by
  induction l generalizing r with
  | nil => exact ⟨rfl, (Ring.held_eq_nil_iff h).mp hl⟩
  | cons a l ih =>
    obtain ⟨hfst, hrest, -⟩ := Ring.pop_of_held_cons h hl
    obtain ⟨hpopped, hempty⟩ := ih (Ring.pop_keeps_wf h) hrest
    exact ⟨congrArg₂ List.cons hfst hpopped, hempty⟩

/-- Pushing a list that fits appends it to the bytes held. -/
theorem Ring.held_pushAll (h : r.wf n) {l : List (Byte × Bool)} (hfit : (r.held n).length + l.length ≤ n - 1) :
    (r.pushAll n l).wf n ∧ (r.pushAll n l).held n = r.held n ++ l := by
  induction l generalizing r with
  | nil => exact ⟨h, (List.append_nil _).symm⟩
  | cons a l ih =>
    obtain ⟨byte, ninth⟩ := a
    rw [List.length_cons] at hfit
    have hroom : r.full n = false := by
      rw [← Bool.not_eq_true, ← Ring.held_length_eq_pred_iff h]
      omega
    have hheld := Ring.held_store h hroom byte ninth
    rw [Ring.pushAll, Ring.push_room hroom]
    obtain ⟨hwf, hall⟩ := ih (Ring.store_keeps_wf h byte ninth) (by
      rw [hheld, List.length_append, List.length_singleton]
      omega)
    exact ⟨hwf, by rw [hall, hheld, List.append_assoc, List.singleton_append]⟩

end

/-! ### The obligations of the family -/

/-- Settles O11: each primitive's equation, and what it does to the list of the pairs held. -/
theorem ringPrimitivesRefineAQueue : Obligations.RingPrimitivesRefineAQueue := by
  intro s p rb ninth byte hp _ hwf
  refine ⟨⟨_, _, exec_push_of_port hp rb ninth byte, State.port?_commit hp _ _, ?_⟩,
    ⟨_, _, exec_pop_of_port hp rb, State.port?_commit hp _ _, ?_⟩,
    ⟨_, exec_avail_of_port hp rb, by rw [Ring.held_length]⟩,
    ⟨_, _, exec_discard_of_port hp rb, State.port?_commit hp _ _, ?_⟩,
    ⟨_, _, exec_clear_of_port hp rb, State.port?_commit hp _ _, ?_⟩⟩
  · simp only [Ring.held_length_eq_pred_iff hwf, Port.ring_setRing, State.commit_out]
    cases hf : (p.ring rb).full (ringSize s.cfg rb) with
    | true =>
      rw [if_pos rfl, Ring.push_full hf]
      exact ⟨rfl, rfl, rfl⟩
    | false =>
      rw [if_neg Bool.false_ne_true, Ring.push_room hf]
      exact ⟨Ring.held_store hwf hf byte ninth, rfl, rfl⟩
  · simp only [Port.ring_setRing, State.commit_out]
    cases hl : (p.ring rb).held (ringSize s.cfg rb) with
    | nil =>
      rw [Ring.pop_empty ((Ring.held_eq_nil_iff hwf).mp hl)]
      exact ⟨hl, rfl, rfl⟩
    | cons a l =>
      obtain ⟨hfst, hrest, hovf⟩ := Ring.pop_of_held_cons hwf hl
      exact ⟨hrest, by rw [hfst]; rfl, hovf⟩
  · rw [Port.ring_setRing, Ring.held_eq_nil_iff (Ring.discard_keeps_wf hwf)]
    exact Ring.empty_true.mpr rfl
  · rw [Port.ring_setRing, Ring.held_eq_nil_iff (Ring.clear_keeps_wf hwf)]
    exact Ring.empty_true.mpr rfl

/-- Settles O12: the list is appended to the pairs held, and these are popped oldest first. -/
theorem pushedSequencesPopInOrder : Obligations.PushedSequencesPopInOrder := by
  intro n r l _ hwf hfit
  rw [← Ring.held_length] at hfit ⊢
  obtain ⟨hwf', hheld⟩ := Ring.held_pushAll hwf hfit
  rw [← List.length_append]
  exact Ring.popMany_of_held hwf' hheld

/-- Settles O7: PUSH on a full ring (`Ring.push_full`) and on one with room (`Ring.store_appended`). -/
theorem pushStoresOrOverflows : Obligations.PushStoresOrOverflows := by
  refine ⟨fun rb w h => decode_ring_push h rb,
    fun s p rb ninth byte hp => ⟨fun hfull => ?_, fun hroom hd hb => ?_⟩⟩
  · rw [exec_push_of_port hp, Ring.push_full (Ring.full_true.mpr hfull)]
    rfl
  · refine ⟨_, Ring.store_appended hd hb byte ninth, ?_⟩
    rw [exec_push_of_port hp, Ring.push_room (Ring.full_false.mpr hroom)]
    rfl

/-- Settles O8: POP on an empty ring gives back the ring it read; on any other it is `Ring.pop_some`. -/
theorem popReturnsOldestAndClearsOverflow : Obligations.PopReturnsOldestAndClearsOverflow := by
  refine ⟨fun _ => rfl, fun s p rb hp => ⟨fun hempty => ?_, fun hheld => ?_⟩⟩
  · rw [exec_pop_of_port hp, Ring.pop_empty (Ring.empty_true.mpr hempty), Port.setRing_self, State.commit_self hp]
    rfl
  · rw [exec_pop_of_port hp, Ring.pop_some (Ring.empty_false.mpr hheld)]
    rfl

/-- Settles O9: the POP after a PEEK finds the same ring, and a POP answers what a PEEK does. -/
theorem peekAndAvailOnlyAnswer : Obligations.PeekAndAvailOnlyAnswer := by
  refine ⟨fun _ => ⟨rfl, rfl⟩, fun s p rb hp => ⟨fun hempty => ?_, fun hheld => ?_, exec_avail_of_port hp rb,
    _, _, exec_peek_of_port hp rb, exec_pop_of_port hp rb, ?_⟩⟩
  · rw [exec_peek_of_port hp, Ring.peek_empty (Ring.empty_true.mpr hempty)]
    rfl
  · rw [exec_peek_of_port hp, Ring.peek_some (Ring.empty_false.mpr hheld)]
    rfl
  · rw [State.commit_out, Ring.pop_fst_eq_peek]

/-- Settles O10: both primitives always complete, and write indices and the flag only. -/
theorem clearAndDiscardEmptyTheRing : Obligations.ClearAndDiscardEmptyTheRing :=
  ⟨fun _ => ⟨rfl, rfl⟩, fun _ _ rb hp => ⟨exec_clear_of_port hp rb, exec_discard_of_port hp rb⟩⟩

end Sys2Proof.Machine

/-! SUPPORT. The family of `42_baudrate.md`: rounding (R122), the speed finally in force (R123, R124), when
BAUDCALC accepts a divisor (R125), and how BEGIN splits it over two registers (R128). -/

namespace Sys2Proof.Machine

/-! ### Rounding half up (`42_baudrate.md` R122) -/

/-- Settles O16: p/q + 1/2 is (2p + q) / 2q, and the floor of a quotient of naturals is `div`. -/
theorem roundingIsHalfUp : Obligations.RoundingIsHalfUp := by
  refine fun p q hq => ⟨rfl, ?_⟩
  have hq0 : (q : ℚ) ≠ 0 := by exact_mod_cast (by omega : q ≠ 0)
  have hsum : (p : ℚ) / q + 1 / 2 = ((2 * p + q : ℕ) : ℚ) / (2 * q : ℕ) := by
    push_cast
    field_simp
  rw [hsum, Rat.floor_natCast_div_natCast, rnd, Int.natCast_ediv]

/-- A rounded quotient passes n exactly when p/q reaches the tie n + 1/2. -/
theorem lt_rnd_iff {n p q : Nat} (hq : 1 ≤ q) : n < rnd p q ↔ (2 * n + 1) * q ≤ 2 * p := by
  have hcost : (n + 1) * (2 * q) = (2 * n + 1) * q + q := by ring
  rw [rnd, ← Nat.succ_le_iff, Nat.le_div_iff_mul_le (by omega), Nat.succ_eq_add_one, hcost, Nat.add_le_add_iff_right]

theorem rnd_antitone {p q q' : Nat} (hq : 1 ≤ q) (h : q ≤ q') : rnd p q' ≤ rnd p q :=
  le_of_forall_lt fun n hn => (lt_rnd_iff hq).mpr <|
    (Nat.mul_le_mul_left (2 * n + 1) h).trans ((lt_rnd_iff (hq.trans h)).mp hn)

/-! ### The divisor and the speed (`42_baudrate.md` R121, R123, R124) -/

section
variable {c : Params} {clock rate d : Nat} {prefer prefer' u2x : Bool}

theorem divMax_cast (c : Params) : (c.divMax : Int) = 2 ^ c.divBits - 1 := by
  rw [Params.divMax, Nat.cast_sub Nat.one_le_two_pow, Nat.cast_pow]
  rfl

theorem divFor_normal_le_double (hd : 1 ≤ c.kDouble) (hr : 1 ≤ rate) (h : c.kDouble ≤ c.kNormal) :
    divFor c clock rate false ≤ divFor c clock rate true :=
  Int.sub_le_sub_right (Int.ofNat_le.mpr (rnd_antitone (Nat.mul_pos hd hr) (Nat.mul_le_mul_right rate h))) 1

theorem startSpeed_eq_true_iff : startSpeed c rate prefer = true ↔ c.quirkRate ≠ some rate ∧ prefer = true := by
  rw [startSpeed]
  split <;> simp [*]

/-- Double speed is in force only when it was preferred, is not excepted and its divisor fits. -/
theorem finalSpeed_eq_true_iff : finalSpeed c clock rate prefer = true ↔
    (c.quirkRate ≠ some rate ∧ prefer = true) ∧ divFor c clock rate true ≤ (c.divMax : Int) := by
  rw [finalSpeed, Bool.and_eq_true, startSpeed_eq_true_iff, decide_eq_true_eq]

@[simp] theorem finalSpeed_prefer_false : finalSpeed c clock rate false = false := by
  simp [Bool.eq_false_iff, finalSpeed_eq_true_iff]

theorem finalSpeed_of_quirk (h : c.quirkRate = some rate) : finalSpeed c clock rate prefer = false := by
  simp [Bool.eq_false_iff, finalSpeed_eq_true_iff, h]

theorem finalSpeed_of_divisor_too_large (h : (c.divMax : Int) < divFor c clock rate true) :
    finalSpeed c clock rate prefer = false := by
  simp [Bool.eq_false_iff, finalSpeed_eq_true_iff, h]

/-- The fallback as the pseudocode of R126 writes it: one test at the speed BAUDCALC starts from. -/
theorem finalSpeed_eq_ite : finalSpeed c clock rate prefer =
    if startSpeed c rate prefer = true ∧ (c.divMax : Int) < divFor c clock rate (startSpeed c rate prefer) then false
    else startSpeed c rate prefer := by
  rw [finalSpeed]
  cases startSpeed c rate prefer with
  | false => simp
  | true => by_cases h : (c.divMax : Int) < divFor c clock rate true <;> simp [h, ← not_lt]

/-! ### What BAUDCALC answers (`42_baudrate.md` R125, R126) -/

/-- The preference reaches the result through the speed finally in force only. -/
theorem baudcalc_congr (h : finalSpeed c clock rate prefer = finalSpeed c clock rate prefer') :
    baudcalc c clock rate prefer = baudcalc c clock rate prefer' := by
  simp only [baudcalc, h]

/-- A divisor out of [0, DIV_MAX] is an error, never clamped. -/
theorem baudcalc_error (h : divFor c clock rate (finalSpeed c clock rate prefer) < 0 ∨
    (c.divMax : Int) < divFor c clock rate (finalSpeed c clock rate prefer)) :
    baudcalc c clock rate prefer = .error := by
  simp [baudcalc, h]

/-- BAUDCALC accepts exactly the divisor of the speed in force, and only as it is. -/
theorem baudcalc_eq_ok_iff : baudcalc c clock rate prefer = .ok d u2x ↔
    rate ≠ 0 ∧ finalSpeed c clock rate prefer = u2x ∧ divFor c clock rate u2x = d ∧ d ≤ c.divMax := by
  by_cases hr : rate = 0
  · simp [baudcalc, hr]
  by_cases hbad : divFor c clock rate (finalSpeed c clock rate prefer) < 0 ∨
      (c.divMax : Int) < divFor c clock rate (finalSpeed c clock rate prefer)
  · rw [baudcalc_error hbad]
    refine ⟨nofun, ?_⟩
    rintro ⟨-, rfl, hd, hmax⟩
    omega
  · simp only [baudcalc, if_neg hr, if_neg hbad, BaudResult.ok.injEq]
    constructor
    · rintro ⟨hd, rfl⟩
      exact ⟨hr, rfl, by omega, by omega⟩
    · rintro ⟨-, rfl, hd, -⟩
      exact ⟨by omega, rfl⟩

end

/-- Settles O17, by `baudcalc_eq_ok_iff` and what puts double speed in force. -/
theorem acceptedDivisorIsExact : Obligations.AcceptedDivisorIsExact := by
  intro c clock rate prefer d u2x h
  obtain ⟨hrate, hspeed, hdiv, hmax⟩ := baudcalc_eq_ok_iff.mp h
  refine ⟨hrate, hmax, ?_, fun hu => ?_⟩
  · change (rnd clock ((if u2x then c.kDouble else c.kNormal) * rate) : Int) - 1 = d at hdiv
    omega
  · obtain ⟨⟨hquirk, hprefer⟩, -⟩ := finalSpeed_eq_true_iff.mp (hspeed.trans hu)
    exact ⟨hprefer, hquirk⟩

/-- Settles O18: rounding is antitone in the factor, and the result follows the speed finally in force. -/
theorem fallbackGoesFromDoubleToNormal : Obligations.FallbackGoesFromDoubleToNormal := by
  intro c clock rate hc hrate
  obtain ⟨-, -, -, -, hdouble, -, -⟩ := hc
  refine ⟨divFor_normal_le_double hdouble hrate, fun _ hlarge => baudcalc_congr ?_,
    fun _ hquirk => baudcalc_congr ?_, fun hbad => baudcalc_error ?_, fun hpos hfit => baudcalc_eq_ok_iff.mpr ?_⟩
  · rw [finalSpeed_of_divisor_too_large hlarge, finalSpeed_prefer_false]
  · rw [finalSpeed_of_quirk hquirk, finalSpeed_prefer_false]
  · rwa [finalSpeed_prefer_false]
  · exact ⟨by omega, finalSpeed_prefer_false, (Int.toNat_of_nonneg hpos).symm, by omega⟩

/-! ### BEGIN's registers (`42_baudrate.md` R128, `43_portconfig.md` R140) -/

theorem exec_begin_of_ok {s : State} {p : Port} {rate d : Nat} {u2x : Bool} (hp : s.port? = some p)
    (h : baudcalc s.cfg s.cfg.clockHz rate s.cfg.preferU2x = .ok d u2x) (line : Byte) :
    exec (.beginPort rate line) s = .next (s.respond (p.restart.configure d u2x line) (rspWord .ok 0#16)) := by
  simp [exec, execBegin, hp, h]

theorem divMax_lt {c : Params} (h : c.divBits ≤ 16) : c.divMax < 65536 :=
  Nat.sub_one_lt_of_le (Nat.two_pow_pos _) (Nat.pow_le_pow_right (n := 2) (by omega) h)

/-- The two registers hold every 16-bit divisor whole. -/
theorem divHigh_divLow_toNat {d : Nat} (h : d < 65536) : (divHigh d).toNat * 256 + (divLow d).toNat = d := by
  simp only [divHigh, divLow, BitVec.toNat_ofNat]
  omega

/-- Settles O20: an accepted divisor is at most DIV_MAX, which fits the two registers. -/
theorem beginProgramsTheWholeDivisor : Obligations.BeginProgramsTheWholeDivisor := by
  intro s p rate line d u2x hc hp hbaud
  obtain ⟨-, -, -, -, -, -, -, hbits⟩ := hc
  obtain ⟨-, -, -, hmax⟩ := baudcalc_eq_ok_iff.mp hbaud
  exact ⟨_, _, exec_begin_of_ok hp hbaud line, State.port?_respond hp _ _ _,
    divHigh_divLow_toNat (hmax.trans_lt (divMax_lt hbits)), rfl, rfl, rfl, rfl⟩

/-- Settles O15: the pseudocode's speed is `finalSpeed`, its divisor `divFor` and its bound DIV_MAX. -/
theorem baudcalcFollowsThePseudocode : Obligations.BaudcalcFollowsThePseudocode := by
  intro s clock rate prefer k d divMax u0 u result
  have hmax : divMax = s.cfg.divMax := (divMax_cast s.cfg).symm
  have hspeed : u = finalSpeed s.cfg clock rate prefer := by
    rw [finalSpeed_eq_ite, ← hmax]
    rfl
  have hresult : result = baudcalc s.cfg clock rate prefer := by
    simp only [result, hspeed, hmax]
    rfl
  rw [hresult]
  rfl

end Sys2Proof.Machine

/-! SUPPORT. The family of `43_portconfig.md`: what BEGIN (R140) and END (R141) leave on their port, and why no
handler steps there after END. -/

namespace Sys2Proof.Machine

theorem rspWord_ok_zero : rspWord .ok 0#16 = 0x00000#18 := by decide

/-! ### BEGIN (`43_portconfig.md` R140) -/

theorem decode_cmd_begin {w : CmdWord} (h : w &&& 0xFF0000000000#48 = 0x100000000000#48) :
    decode (.cmd w) = .ok (.beginPort (w.extractLsb' 0 32).toNat (w.extractLsb' 32 8)) := by
  rw [decode, decodeCmd, if_pos ((selects_eq_true_iff _ _ _).mpr h)]

theorem rspWord_baudError_zero : rspWord .baudError 0#16 = 0x20000#18 := by decide

theorem exec_begin_of_error {s : State} {p : Port} {rate : Nat} (hp : s.port? = some p)
    (h : baudcalc s.cfg s.cfg.clockHz rate s.cfg.preferU2x = .error) (line : Byte) :
    exec (.beginPort rate line) s =
      .next (s.respond p.restart (rspWord .baudError 0#16) [.baudUnsatisfiable rate]) := by
  simp [exec, execBegin, hp, h]

/-- Settles O19: the port restarts on both answers of BAUDCALC, and is configured on `ok` only. -/
theorem beginResetsThenConfigures : Obligations.BeginResetsThenConfigures := by
  refine ⟨fun w hw => decode_cmd_begin hw, fun s p rate line hp => ⟨fun herror => ?_, fun d u2x hok => ?_⟩⟩
  · rw [exec_begin_of_error hp herror, rspWord_baudError_zero]
    rfl
  · rw [exec_begin_of_ok hp hok, rspWord_ok_zero]
    rfl

/-! ### END (`43_portconfig.md` R141) -/

theorem exec_end_of_drained {s : State} {p : Port} (hp : s.port? = some p) (h : p.tx.empty = true) :
    exec .endPort s = .next (s.respond p.shutDown (rspWord .ok 0#16)) := by
  simp [exec, execEnd, hp, Port.endReady, h]

theorem exec_end_of_undrained {s : State} {p : Port} (hp : s.port? = some p) (h : p.tx.empty = false) :
    exec .endPort s = .next (s.hold endWord .w1) := by
  simp [exec, execEnd, hp, Port.endReady, h]

theorem endWord_eq : endWord = 0x200000000000#48 := by decide

/-- Settles O21: END's guard is that `TX` is empty, and each side of it is one equation. -/
theorem endDrainsThenDisables : Obligations.EndDrainsThenDisables := by
  refine ⟨endWord_eq ▸ decodeCmd_endWord, fun s p hp => ⟨fun hheld => ?_, fun hempty => ?_⟩⟩
  · rw [exec_end_of_undrained hp (Ring.empty_false.mpr hheld), endWord_eq]
    rfl
  · rw [exec_end_of_drained hp (Ring.empty_true.mpr hempty), rspWord_ok_zero]
    rfl

/-! ### No handler steps after END (`43_portconfig.md` R141 corner case e, `10_state.md` R30) -/

@[simp] theorem Port.periph_rxie (p : Port) (a : PeriphAct) : (p.periph a).pr.rxie = p.pr.rxie := by
  cases a with
  | drive => rfl
  | load => simp only [Port.periph]; split <;> rfl
  | sent =>
    simp only [Port.periph]
    split
    · split <;> rfl
    · rfl
  | recv => simp only [Port.periph]; split <;> rfl

/-- PERIPH owns the pending bits only: with the source disabled it cannot raise the receive line. -/
theorem Port.periph_rxIrq_of_disabled {p : Port} (h : p.pr.rxie = false) (a : PeriphAct) :
    (p.periph a).pr.rxIrq = false := by
  rw [PeriphRegs.rxIrq, Port.periph_rxie, h, Bool.and_false]

theorem Port.periph_txIrq_of_disabled {p : Port} (h : p.pr.txie = false) (a : PeriphAct) :
    (p.periph a).pr.txIrq = false := by
  rw [PeriphRegs.txIrq, Port.periph_txie, h, Bool.and_false]

/-- Settles O22: END clears both source enables, PERIPH writes neither, and a handler whose line is 0 idles. -/
theorem endSilencesBothHandlers : Obligations.EndSilencesBothHandlers := by
  intro s p a hp hempty
  have hport := State.port?_respond hp p.shutDown (rspWord .ok 0#16) []
  have hdriven := State.port?_commit hport (p.shutDown.periph a) { rsp := some (rspWord .ok 0#16) }
  exact ⟨_, _, exec_end_of_drained hp hempty, hport, Ring.empty_true.mpr rfl,
    exec_rxi_of_line_low hdriven (Port.periph_rxIrq_of_disabled rfl a),
    exec_txi_of_line_low hdriven (Port.periph_txIrq_of_disabled rfl a)⟩

end Sys2Proof.Machine

/-! SUPPORT. The family of `44_handlers.md`: the three ends of RXI's body (R161), and the event word that enables
each handler (R160). TXI's two ends are `Port.transmit_of_empty` and `Port.transmit_of_held`. -/

namespace Sys2Proof.Machine

/-! ### The event word -/

theorem rxi_mem_eventHandlers {w : EventWord} (h : w &&& 0b01#2 = 0b01#2) : .rxi ∈ eventHandlers w :=
  (mem_eventHandlers_rxi w).mpr (selects_rxi w ▸ (selects_eq_true_iff _ _ _).mpr h)

theorem txi_mem_eventHandlers {w : EventWord} (h : w &&& 0b10#2 = 0b10#2) : .txi ∈ eventHandlers w :=
  (mem_eventHandlers_txi w).mpr (selects_txi w ▸ (selects_eq_true_iff _ _ _).mpr h)

theorem PeriphRegs.rxIrq_of_enabled {pr : PeriphRegs} (hc : pr.rxc = true) (he : pr.rxie = true) :
    pr.rxIrq = true := by
  rw [PeriphRegs.rxIrq, hc, he, Bool.and_self]

theorem PeriphRegs.txIrq_of_enabled {pr : PeriphRegs} (hd : pr.dre = true) (he : pr.txie = true) :
    pr.txIrq = true := by
  rw [PeriphRegs.txIrq, hd, he, Bool.and_self]

/-! ### RXI's body: an errored byte, a full ring, a ring with room (R161) -/

/-- The error bit is tested first: whether `RX` is full does not matter. -/
theorem Port.receive_of_error {p : Port} (herr : p.pr.err = true) (c : Params) :
    p.receive c = ([.frameParityError], { p with pr := p.pr.readRxData.2 }) := by
  simp [Port.receive, herr]

section
variable {p : Port} (herr : p.pr.err = false) {c : Params}
include herr

theorem Port.receive_of_full (hfull : p.rx.full c.nRx = true) :
    p.receive c =
      ([.bufferOverflow .rx], { p with pr := p.pr.readRxData.2, rx := { p.rx with ovf := true } }) := by
  simp [Port.receive, herr, Ring.push_full hfull]

theorem Port.receive_of_room (hroom : p.rx.full c.nRx = false) :
    p.receive c =
      ([], { p with pr := p.pr.readRxData.2, rx := p.rx.store c.nRx p.pr.rxdata p.pr.rxb8 }) := by
  simp [Port.receive, herr, Ring.push_room hroom, PeriphRegs.readRxData]

end

/-- Settles O24: the three ends of RXI's body, the stored one through `Ring.store_appended`. -/
theorem rxiTakesOneByte : Obligations.RxiTakesOneByte := by
  refine ⟨fun w => rxi_mem_eventHandlers, fun s p hp hrxc hrxie => ?_⟩
  have hstep := exec_rxi_of_line_high hp (PeriphRegs.rxIrq_of_enabled hrxc hrxie)
  refine ⟨fun herr => ?_, fun herr hfull => ?_, fun herr hroom hd hb =>
    ⟨_, Ring.store_appended hd hb p.pr.rxdata p.pr.rxb8, ?_⟩⟩
  · rw [hstep, Port.receive_of_error herr]
    rfl
  · rw [hstep, Port.receive_of_full herr (Ring.full_true.mpr hfull)]
    rfl
  · rw [hstep, Port.receive_of_room herr (Ring.full_false.mpr hroom)]
    rfl

/-- Settles O25: on an empty `TX` TXI's body only disables its source, and otherwise it hands over the oldest pair. -/
theorem txiHandsOverOneFrame : Obligations.TxiHandsOverOneFrame := by
  refine ⟨fun w => txi_mem_eventHandlers, fun s p hp hdre htxie => ?_⟩
  have hstep := exec_txi_of_line_high hp (PeriphRegs.txIrq_of_enabled hdre htxie)
  refine ⟨fun hempty => ?_, fun hheld => ?_⟩
  · rw [hstep, Port.transmit_of_empty (Ring.empty_true.mpr hempty)]
    rfl
  · rw [hstep, Port.transmit_of_held (Ring.empty_false.mpr hheld)]
    rfl

end Sys2Proof.Machine

/-! SUPPORT. The family of `45_transport.md`: the six transport commands on a port that exists, one equation for
each side of a guard (R180 to R186), the order of the frames (R189), and what a handler's step does for a command
that waits (R185, R188). -/

namespace Sys2Proof.Machine

/-! ### The responses (`30_encoding.md` R73) -/

theorem rspWord_ok_one : rspWord .ok 1#16 = 0x00001#18 := by decide

theorem dataRsp_none : dataRsp none = 0x1FFFF#18 := by decide

/-- STATUS OK is 0: the response word is VALUE. -/
theorem rspWord_ok_toNat (v : BitVec 16) : (rspWord .ok v).toNat = v.toNat := by
  have hv : v.toNat < 262144 := v.isLt.trans (by decide)
  simpa [rspWord, Status.code, field] using hv

theorem dataValue_toNat (byte : Byte) (ninth : Bool) :
    (dataValue byte ninth).toNat = ninth.toNat * 256 + byte.toNat := by
  have hb : byte.toNat < 65536 := byte.isLt.trans (by decide)
  have h256 : ninth.toNat * 256 = ninth.toNat <<< 8 := by rw [Nat.shiftLeft_eq]
  rw [h256, Nat.shiftLeft_add_eq_or_of_lt byte.isLt]
  cases ninth <;> simp [dataValue, field, Nat.mod_eq_of_lt hb]

theorem dataRsp_some_toNat (byte : Byte) (ninth : Bool) :
    (dataRsp (some (byte, ninth))).toNat = ninth.toNat * 256 + byte.toNat := by
  rw [dataRsp, rspWord_ok_toNat, dataValue_toNat]

/-- A response that gives back the port as it was shows on `PEND` and the outputs only. -/
theorem State.respond_same_port {s : State} {p : Port} (hp : s.port? = some p) (rsp : RspWord) :
    s.respond p rsp = { s with pend := none, out := { rsp := some rsp } } := by
  rw [State.respond, State.commit_self hp]

/-! ### WRITE (`45_transport.md` R180, R181) -/

/-- The words of WRITE's row carry the ninth bit in bit 8 and the byte below it. -/
theorem decode_cmd_write {w : CmdWord} (h : w &&& 0xFFFFFFFFFE00#48 = 0x300000000000#48) :
    decode (.cmd w) = .ok (.write (w.getLsbD 8) (w.extractLsb' 0 8)) := by
  refine decodeCmd_eq_write.mpr ?_
  have hrow := (selects_write w).mp ((selects_eq_true_iff _ _ _).mpr h)
  conv_lhs => rw [cmd_fields_write w, hrow]
  rfl

theorem Port.enqueue_of_room {c : Params} {p : Port} (h : p.tx.full c.nTx = false) (byte : Byte) (ninth : Bool) :
    p.enqueue c byte ninth = { p with tx := p.tx.store c.nTx byte ninth } := by
  rw [Port.enqueue, Ring.push_room h]

section
variable {s : State} {p : Port} (hp : s.port? = some p) {ninth : Bool} {byte : Byte}
include hp

section
variable (hs : s.cfg.writeSplit = false)
include hs

theorem exec_write_of_full (h : p.tx.full s.cfg.nTx = true) :
    exec (.write ninth byte) s = .next (s.hold (writeWord ninth byte) .w1) := by
  simp [exec, execWrite, hp, hs, writeAtomic, Port.writeReady, h]

theorem exec_write_of_room (h : p.tx.full s.cfg.nTx = false) : exec (.write ninth byte) s =
    .next (s.respond (p.enqueue s.cfg byte ninth).armTx.markTxing.clearTxc (rspWord .ok 1#16)) := by
  simp [exec, execWrite, hp, hs, writeAtomic, Port.writeReady, h]

end

section
variable (hs : s.cfg.writeSplit = true)
include hs

theorem exec_splitWrite : exec (.write ninth byte) s = .next (writeSplit ninth byte s p) := by
  simp [exec, execWrite, hp, hs]

theorem exec_splitWrite_w1_of_full (hph : s.phaseOf (writeWord ninth byte) = .w1)
    (h : p.tx.full s.cfg.nTx = true) :
    exec (.write ninth byte) s = .next (s.hold (writeWord ninth byte) .w1) := by
  simp [exec_splitWrite hp hs, writeSplit, hph, Port.writeReady, h]

theorem exec_splitWrite_w1_of_room (hph : s.phaseOf (writeWord ninth byte) = .w1)
    (h : p.tx.full s.cfg.nTx = false) : exec (.write ninth byte) s =
      .next ((s.commit (p.enqueue s.cfg byte ninth) {}).hold (writeWord ninth byte) .w2) := by
  simp [exec_splitWrite hp hs, writeSplit, hph, Port.writeReady, h]

theorem exec_splitWrite_w2 (hph : s.phaseOf (writeWord ninth byte) = .w2) :
    exec (.write ninth byte) s = .next ((s.commit p.armTx {}).hold (writeWord ninth byte) .w3) := by
  simp [exec_splitWrite hp hs, writeSplit, hph]

theorem exec_splitWrite_w3 (hph : s.phaseOf (writeWord ninth byte) = .w3) :
    exec (.write ninth byte) s = .next ((s.commit p.markTxing {}).hold (writeWord ninth byte) .w4) := by
  simp [exec_splitWrite hp hs, writeSplit, hph]

theorem exec_splitWrite_w4 (hph : s.phaseOf (writeWord ninth byte) = .w4) :
    exec (.write ninth byte) s = .next (s.respond p.clearTxc (rspWord .ok 1#16)) := by
  simp [exec_splitWrite hp hs, writeSplit, hph]

end

/-! ### The other five commands (`45_transport.md` R182 to R186) -/

theorem exec_flush_of_waiting (htxing : p.txing = true) (htxc : p.pr.txc = false) :
    exec .flush s = .next (s.hold flushWord .w1) := by
  simp [exec, execFlush, hp, Port.flushReady, htxing, htxc]

theorem exec_flush_of_ready (h : p.txing = false ∨ p.pr.txc = true) :
    exec .flush s = .next (s.respond { p with txing := false } (rspWord .ok 0#16)) := by
  have hready : p.flushReady = true := by simpa [Port.flushReady] using h
  simp [exec, execFlush, hp, hready]

theorem exec_peekc_of_port : exec .peekc s =
    .next { s with pend := none, out := { rsp := some (dataRsp p.rx.peek) } } :=
  (State.onPort_some _ hp).trans (congrArg _ (State.respond_same_port hp _))

theorem exec_available_of_port : exec .available s = .next { s with
    pend := none, out := { rsp := some (rspWord .ok (BitVec.ofNat 16 (p.rx.occ s.cfg.nRx))) } } :=
  (State.onPort_some _ hp).trans (congrArg _ (State.respond_same_port hp _))

theorem exec_overflow_of_port : exec .overflow s = .next { s with
    pend := none, out := { rsp := some (rspWord .ok ((BitVec.ofBool p.rx.ovf).setWidth 16)) } } :=
  (State.onPort_some _ hp).trans (congrArg _ (State.respond_same_port hp _))

end

/-- A command not held, or held before its PUSH, stands before W1. -/
theorem State.phaseOf_eq_w1 {s : State} {w : CmdWord} (h : s.pend = none ∨ s.pend = some ⟨s.cur, w, .w1⟩) :
    s.phaseOf w = .w1 := by
  rcases h with h | h
  · simp [State.phaseOf, h]
  · exact State.phaseOf_held h rfl

theorem flushWord_eq : flushWord = 0x400000000000#48 := by decide

/-- Settles O28: WRITE's guard is that `TX` has room, and each side of it is one equation. -/
theorem writeEnqueuesAndArms : Obligations.WriteEnqueuesAndArms := by
  refine ⟨fun w => decode_cmd_write, fun s p ninth byte hp hs => ⟨fun hfull => ?_, fun hroom hd hb => ?_⟩⟩
  · exact ⟨_, rfl, exec_write_of_full hp hs (Ring.full_true.mpr hfull)⟩
  · have hroom := Ring.full_false.mpr hroom
    refine ⟨_, Ring.store_appended hd hb byte ninth, ?_⟩
    rw [exec_write_of_room hp hs hroom, Port.enqueue_of_room hroom, rspWord_ok_one]
    rfl

/-- Settles O29, micro-step by micro-step. -/
theorem splitWriteTakesItsMicroSteps : Obligations.SplitWriteTakesItsMicroSteps := by
  intro s p ninth byte w hp hs hw
  cases hw
  refine ⟨fun hpend hfull => ?_, fun hpend hroom hd hb => ?_, fun hpend => ?_, fun hpend => ?_, fun hpend => ?_⟩
  · exact exec_splitWrite_w1_of_full hp hs (State.phaseOf_eq_w1 hpend) (Ring.full_true.mpr hfull)
  · have hroom := Ring.full_false.mpr hroom
    refine ⟨_, Ring.store_appended hd hb byte ninth, ?_⟩
    rw [exec_splitWrite_w1_of_room hp hs (State.phaseOf_eq_w1 hpend) hroom, Port.enqueue_of_room hroom]
    rfl
  · exact exec_splitWrite_w2 hp hs (State.phaseOf_held hpend rfl)
  · exact exec_splitWrite_w3 hp hs (State.phaseOf_held hpend rfl)
  · rw [exec_splitWrite_w4 hp hs (State.phaseOf_held hpend rfl), rspWord_ok_one]
    rfl

/-- Settles O30: FLUSH's guard, and each side of it one equation. -/
theorem flushWaitsForCompletion : Obligations.FlushWaitsForCompletion := by
  refine ⟨flushWord_eq ▸ decodeCmd_flushWord, fun s p hp => ⟨fun ⟨htxing, htxc⟩ => ?_, fun hready => ?_⟩⟩
  · rw [exec_flush_of_waiting hp htxing htxc, flushWord_eq]
    rfl
  · rw [exec_flush_of_ready hp hready, rspWord_ok_zero]
    rfl

/-- Settles O31: READ answers and leaves what a POP of `RX` does. -/
theorem readDeliversByteAndNinthBit : Obligations.ReadDeliversByteAndNinthBit := by
  refine ⟨by decide, fun s p hp => ⟨fun hempty => ?_, fun hheld => ⟨_, ?_, dataRsp_some_toNat _ _⟩⟩⟩
  · rw [exec_read_of_port hp, Port.afterRead, Ring.pop_empty (Ring.empty_true.mpr hempty), dataRsp_none]
    exact congrArg _ (State.respond_same_port hp _)
  · rw [exec_read_of_port hp, Port.afterRead, Ring.pop_some (Ring.empty_false.mpr hheld)]
    rfl

/-- Settles O32: PEEKC answers PEEK's pair and leaves the port, so the READ after it pops that very pair. -/
theorem peekcAnswersWithoutReading : Obligations.PeekcAnswersWithoutReading := by
  refine ⟨by decide, fun s p hp => ⟨fun hempty => ?_, fun hheld => ⟨_, ?_, dataRsp_some_toNat _ _⟩,
    _, _, exec_peekc_of_port hp, exec_read_of_port hp, ?_⟩⟩
  · rw [exec_peekc_of_port hp, Ring.peek_empty (Ring.empty_true.mpr hempty), dataRsp_none]
  · rw [exec_peekc_of_port hp, Ring.peek_some (Ring.empty_false.mpr hheld)]
    rfl
  · rw [State.respond_out, Ring.pop_fst_eq_peek]

/-- Settles O33: the occupancy is below N_RX, at most 2^16, so VALUE holds it whole. -/
theorem availableCountsReceivedBytes : Obligations.AvailableCountsReceivedBytes := by
  refine ⟨by decide, fun s p hp hc => ⟨_, exec_available_of_port hp, ?_⟩⟩
  obtain ⟨-, ⟨hlow, hhigh⟩, -⟩ := hc
  have hocc : p.rx.occ s.cfg.nRx < 65536 := (Nat.mod_lt _ (by omega)).trans_le hhigh
  rw [rspWord_ok_toNat, BitVec.toNat_ofNat, Nat.mod_eq_of_lt hocc, Ring.occ]

/-- Settles O34: the flag is bit 0 of VALUE. -/
theorem overflowReportsTheStickyFlag : Obligations.OverflowReportsTheStickyFlag := by
  refine ⟨by decide, fun s p hp => ?_⟩
  have hrsp : ∀ b : Bool, rspWord .ok ((BitVec.ofBool b).setWidth 16) =
      if b = true then 0x00001#18 else 0x00000#18 := by decide
  rw [exec_overflow_of_port hp, hrsp]

/-- Settles O39: W4 clears `TXC` and leaves `TXING`, which is FLUSH's guard gone. -/
theorem splitWriteCanLoseTheCompletion : Obligations.SplitWriteCanLoseTheCompletion := by
  intro s p ninth byte w hp hs hw hpend htxing _
  cases hw
  have hport := State.port?_respond hp p.clearTxc (rspWord .ok 1#16) []
  refine ⟨_, _, p.clearTxc, exec_splitWrite_w4 hp hs (State.phaseOf_held hpend rfl), ?_, rfl,
    exec_flush_of_waiting hport htxing rfl, ?_, rfl, hport, htxing, rfl⟩
  · rw [State.respond_out, rspWord_ok_one]
  · rw [State.hold_pend, State.respond_cur, flushWord_eq]

/-! ### The order of the frames (`45_transport.md` R189) -/

/-- TXI's body leaves in `TX` what a POP does. -/
theorem Port.transmit_tx (c : Params) (p : Port) : (p.transmit c).tx = (p.tx.pop c.nTx).2 := by
  cases he : p.tx.empty
  · rw [Port.transmit_of_held he, Ring.pop_some he]
  · rw [Port.transmit_of_empty he, Ring.pop_empty he]

/-- TXI's body hands over the pair a POP takes. -/
theorem Port.transmit_handsOver {c : Params} {p : Port} {byte : Byte} {ninth : Bool}
    (h : (p.tx.pop c.nTx).1 = some (byte, ninth)) :
    (p.transmit c).ref.hold = some ⟨ninth, byte⟩ ∧ (p.transmit c).pr.txb8 = ninth ∧
      (p.transmit c).pr.txdata = byte := by
  cases he : p.tx.empty
  · rw [Ring.pop_some he] at h
    obtain ⟨rfl, rfl⟩ := Prod.mk.inj (Option.some.inj h)
    rw [Port.transmit_of_held he]
    exact ⟨rfl, rfl, rfl⟩
  · rw [Ring.pop_empty he] at h
    cases h

/-- Settles O35: TXI and READ each POP, and a POP takes the first of the pairs held. -/
theorem framesLeaveOldestFirst : Obligations.FramesLeaveOldestFirst := by
  constructor
  · intro s p byte ninth l hp _ hwf hirq hl
    obtain ⟨hfst, hrest, -⟩ := Ring.pop_of_held_cons hwf hl
    obtain ⟨hhold, htxb8, htxdata⟩ := Port.transmit_handsOver hfst
    exact ⟨_, _, exec_txi_of_line_high hp hirq, State.port?_commit hp _ _, hhold, htxb8, htxdata,
      by rw [Port.transmit_tx, hrest]⟩
  · intro s p byte ninth l hp _ hwf hl
    obtain ⟨hfst, hrest, -⟩ := Ring.pop_of_held_cons hwf hl
    refine ⟨_, _, _, exec_read_of_port hp, State.port?_respond hp _ _ _, rfl, ?_, hrest⟩
    rw [hfst, dataRsp_some_toNat]

/-! ### A WRITE held on a full `TX` (`45_transport.md` R188) -/

theorem State.run_succ_of_next {s t : State} (h : step s = .next t) (k : Nat) : s.run (k + 1) = t.run k := by
  simp [State.run, h]

/-- TXI's step on a port whose line is 1. -/
theorem step_txi_of_line_high {s : State} {k : Nat} {p : Port} {rest : List Move} (hs : s.sched = .txi k :: rest)
    (hp : s.ports[k]? = some p) (hi : p.pr.txIrq = true) :
    ∃ t, step s = .next t ∧ t.cfg = s.cfg ∧ t.pend = s.pend ∧ t.sched = rest ∧
      t.ports[k]? = some (p.transmit s.cfg) := by
  let s0 : State := { s with sched := rest, out := {}, cur := k }
  have hp0 : s0.port? = some p := hp
  refine ⟨_, (step_of_sched_cons hs).trans (exec_txi_of_line_high hp0 hi), rfl, rfl, rfl, ?_⟩
  exact State.port?_commit hp0 _ _

/-- MAIN's attempt at a held WRITE whose ring has room. -/
theorem step_main_of_held_write {s : State} {k : Nat} {p : Port} {ninth : Bool} {byte : Byte} {ph : WPhase}
    {rest : List Move} (hs : s.sched = .main :: rest) (hpend : s.pend = some ⟨k, writeWord ninth byte, ph⟩)
    (hsplit : s.cfg.writeSplit = false) (hp : s.ports[k]? = some p) (hroom : p.tx.full s.cfg.nTx = false) :
    ∃ t q, step s = .next t ∧ t.pend = none ∧ t.out.rsp = some 0x00001#18 ∧ t.sched = rest ∧
      t.ports[k]? = some q ∧ q.tx = p.tx.store s.cfg.nTx byte ninth := by
  let s0 : State := { s with sched := rest, out := {} }
  let s1 : State := { s0 with cur := k }
  have hp1 : s1.port? = some p := hp
  have hattempt : stepMain s0 = exec (.write ninth byte) s1 :=
    stepMain_of_held (s := s0) hpend (decodeCmd_eq_write.mpr rfl)
  refine ⟨_, _, (step_of_sched_cons hs).trans (hattempt.trans (exec_write_of_room hp1 hsplit hroom)), rfl, ?_, rfl,
    State.port?_respond hp1 _ _ _, ?_⟩
  · rw [State.respond_out, rspWord_ok_one]
  · rw [Port.enqueue_of_room hroom]
    rfl

/-- A POP of a full ring takes its oldest pair and makes room. -/
theorem Ring.pop_of_full {n : Nat} {r : Ring} (hn : 2 ≤ n) (h : r.wf n) (hf : r.full n = true) :
    (r.pop n).2.held n = (r.held n).tail ∧ (r.pop n).2.full n = false := by
  have hlen := (Ring.held_length_eq_pred_iff h).mpr hf
  cases hl : r.held n with
  | nil =>
    rw [hl, List.length_nil] at hlen
    omega
  | cons a l =>
    obtain ⟨-, hrest, -⟩ := Ring.pop_of_held_cons h hl
    refine ⟨hrest, ?_⟩
    rw [hl, List.length_cons] at hlen
    rw [← Bool.not_eq_true, ← Ring.held_length_eq_pred_iff (Ring.pop_keeps_wf h), hrest]
    omega

/-- Settles O37: TXI's POP makes room, and MAIN's next attempt at the WRITE appends its pair. -/
theorem heldWriteCompletesAfterOnePop : Obligations.HeldWriteCompletesAfterOnePop := by
  intro s k p ninth byte w rest hinv hsplit hw hpend hp hfull hirq hs
  cases hw
  obtain ⟨⟨-, -, ⟨hn, -⟩, -⟩, -, -, hports, -⟩ := hinv
  obtain ⟨-, hwf⟩ : p.wf s.cfg := PortsWf.get hports hp
  obtain ⟨hrest, hroom⟩ := Ring.pop_of_full hn hwf hfull
  rw [← Port.transmit_tx] at hrest hroom
  have hwf' : (p.transmit s.cfg).tx.wf s.cfg.nTx := Port.transmit_tx s.cfg p ▸ Ring.pop_keeps_wf hwf
  obtain ⟨t, htxi, hcfg, htpend, htsched, hport⟩ := step_txi_of_line_high hs hp hirq
  rw [← hcfg] at hsplit hroom
  obtain ⟨u, q, hmain, hupend, hrsp, husched, hq, htx⟩ :=
    step_main_of_held_write htsched (htpend.trans hpend) hsplit (hcfg ▸ hport) hroom
  refine ⟨u, q, ?_, hupend, hrsp, husched, hq, ?_⟩
  · rw [State.run_succ_of_next htxi, State.run_succ_of_next hmain, State.run]
  · rw [htx, hcfg, Ring.held_store hwf' (hcfg ▸ hroom), hrest]

/-! ### The count of `RX` between two commands (`45_transport.md` R185) -/

theorem Ring.occ_le_push {n : Nat} {r : Ring} (h : r.wf n) (byte : Byte) (ninth : Bool) :
    r.occ n ≤ (r.push n byte ninth).2.occ n := by
  cases hf : r.full n
  · rw [Ring.push_room hf, ← Ring.held_length, ← Ring.held_length, Ring.held_store h hf, List.length_append]
    exact Nat.le_add_right _ _
  · rw [Ring.push_full hf]
    exact Nat.le_refl _

/-- RXI pushes at most, and TXI does not reach `RX`. -/
theorem PortEffect.rx_occ_le_of_handler {c : Params} {p q : Port} {i : Instr} (e : PortEffect c p i q)
    (hi : i = .rxi ∨ i = .txi) (h : p.rx.wf c.nRx) : p.rx.occ c.nRx ≤ q.rx.occ c.nRx := by
  cases e with
  | same => exact Nat.le_refl _
  | received =>
    rw [Port.receive_port]
    cases p.pr.err
    · exact Ring.occ_le_push h _ _
    · exact Nat.le_refl _
  | transmitted => rw [Port.transmit_rx]
  | _ => simp at hi

/-- A step of PERIPH makes its move on one port and leaves the others. -/
theorem step_periph_port {s t : State} {j k : Nat} {a : PeriphAct} {rest : List Move} {p q : Port}
    (hs : s.sched = .periph j a :: rest) (h : step s = .next t) (hp : s.ports[k]? = some p)
    (hq : t.ports[k]? = some q) : q = p ∨ q = p.periph a := by
  rw [step_of_sched_cons hs] at h
  obtain ⟨p', hp', rfl⟩ := State.onPort_next h
  have hlt := State.port?_lt hp'
  by_cases hj : j = k
  · subst hj
    cases hp.symm.trans hp'
    rw [State.commit_ports, List.getElem?_set_self hlt] at hq
    exact .inr (Option.some.inj hq).symm
  · rw [State.commit_ports, List.getElem?_set_ne hj] at hq
    exact .inl (Option.some.inj (hq.symm.trans hp))

/-- Settles O54: a handler's effect on any port, and PERIPH's, which touches no ring. -/
theorem availableOnlyGrowsBetweenCommands : Obligations.AvailableOnlyGrowsBetweenCommands := by
  intro s t m rest k p q hinv hs hm h hp hq
  obtain ⟨-, -, -, hports, -⟩ := hinv
  obtain ⟨hwf, -⟩ : p.wf s.cfg := PortsWf.get hports hp
  have hstep := step_of_sched_cons hs ▸ h
  rcases hm with ⟨j, rfl⟩ | ⟨j, rfl⟩ | ⟨j, a, rfl⟩
  · exact (exec_portEffect (i := .rxi) hstep hp hq).rx_occ_le_of_handler (.inl rfl) hwf
  · exact (exec_portEffect (i := .txi) hstep hp hq).rx_occ_le_of_handler (.inr rfl) hwf
  · rcases step_periph_port hs h hp hq with rfl | rfl
    · exact Nat.le_refl _
    · obtain ⟨hrx, -⟩ := p.periph_rings a
      rw [hrx]

end Sys2Proof.Machine

/-! SUPPORT. The family of `60_exceptions.md`: a handler's own event line after its step (R210), one equation for
each side of a guard of the reference peripheral (R216), and what a PERIPH step writes (R215). -/

namespace Sys2Proof.Machine

/-! ### A handler's own line after its step (`60_exceptions.md` R210) -/

/-- Reading `RXDATA` clears `RXC`. -/
@[simp] theorem Port.receive_rxIrq (c : Params) (p : Port) : (p.receive c).2.pr.rxIrq = false := by
  rw [Port.receive_port]
  rfl

/-- Writing `TXDATA` clears `DRE`; with nothing to write the source is disabled. -/
@[simp] theorem Port.transmit_txIrq (c : Params) (p : Port) : (p.transmit c).pr.txIrq = false := by
  cases he : p.tx.empty
  · rw [Port.transmit_of_held he]
    rfl
  · rw [Port.transmit_of_empty he, PeriphRegs.txIrq, Bool.and_false]

/-- Settles O27: each body lowers its own line, and by its frame leaves the other side of the port. -/
theorem handlerStepLowersItsLine : Obligations.HandlerStepLowersItsLine := by
  intro s p hp
  refine ⟨fun hirq => ?_, fun hirq => ?_⟩
  · have htx : (p.receive s.cfg).2.tx = p.tx := by rw [Port.receive_port]
    have htxing := (p.receive_frame s.cfg).txing nofun nofun nofun
    exact ⟨_, _, exec_rxi_of_line_high hp hirq, State.port?_commit hp _ _, p.receive_rxIrq s.cfg, htx, htxing,
      p.receive_txIrq s.cfg⟩
  · have htxing := (p.transmit_frame s.cfg).txing nofun nofun nofun
    have htxc := (p.transmit_frame s.cfg).txc nofun
    exact ⟨_, _, exec_txi_of_line_high hp hirq, State.port?_commit hp _ _, p.transmit_txIrq s.cfg,
      p.transmit_rx s.cfg, htxing, htxc, p.transmit_rxIrq s.cfg⟩

/-! ### The moves of the reference peripheral (`60_exceptions.md` R216) -/

section
variable {p : Port}

theorem Port.periph_load_of_enabled {f : Frame} (hhold : p.ref.hold = some f) (hshift : p.ref.shift = none) :
    p.periph .load = { p with
      ref := { p.ref with shift := some f, hold := none }, pr := { p.pr with dre := true } } := by
  simp [Port.periph, hhold, hshift]

theorem Port.periph_load_of_disabled (h : p.ref.hold = none ∨ p.ref.shift ≠ none) : p.periph .load = p := by
  rcases h with hhold | hshift
  · simp [Port.periph, hhold]
  · obtain ⟨g, hg⟩ := Option.ne_none_iff_exists'.mp hshift
    simp [Port.periph, hg]

/-- SENT sets `TXC` if and only if no frame waits in `HOLD`. -/
theorem Port.periph_sent_of_enabled {f : Frame} (hshift : p.ref.shift = some f) :
    p.periph .sent = { p with
      ref := { p.ref with wireOut := p.ref.wireOut ++ [f], shift := none }
      pr := if p.ref.hold.isNone then { p.pr with txc := true } else p.pr } := by
  simp [Port.periph, hshift]

theorem Port.periph_sent_of_disabled (hshift : p.ref.shift = none) : p.periph .sent = p := by
  simp [Port.periph, hshift]

theorem Port.periph_recv_of_enabled (hrxen : p.pr.rxen = true) (byte : Byte) (b8 err : Bool) :
    p.periph (.recv byte b8 err) = { p with
      pr := { p.pr with rxdata := byte, rxb8 := b8, err := err, rxc := true }
      ref := { p.ref with wireIn := p.ref.wireIn ++ [⟨b8, byte, err⟩] } } := by
  simp [Port.periph, hrxen]

theorem Port.periph_recv_of_disabled (hrxen : p.pr.rxen = false) (byte : Byte) (b8 err : Bool) :
    p.periph (.recv byte b8 err) = p := by
  simp [Port.periph, hrxen]

end

/-- Settles O51: the two sides of each move's guard, and SENT's two cases of `HOLD`. -/
theorem referencePeripheralMovesFrames : Obligations.ReferencePeripheralMovesFrames := by
  intro p
  refine ⟨fun f => Port.periph_load_of_enabled, Port.periph_load_of_disabled, fun f hshift hhold => ?_,
    fun f hshift hhold => ?_, Port.periph_sent_of_disabled,
    fun byte b8 err hrxen => Port.periph_recv_of_enabled hrxen byte b8 err,
    fun byte b8 err hrxen => Port.periph_recv_of_disabled hrxen byte b8 err⟩
  · rw [Port.periph_sent_of_enabled hshift, if_pos (Option.isNone_iff_eq_none.mpr hhold)]
  · rw [Port.periph_sent_of_enabled hshift, if_neg (mt Option.isNone_iff_eq_none.mp hhold)]

/-! ### What a step of PERIPH writes (`60_exceptions.md` R215) -/

/-- `q` is `p` but for the six fields that PERIPH owns. -/
def PeriphRegs.AgreeOnBlockOwned (p q : PeriphRegs) : Prop :=
  q = { p with txc := q.txc, dre := q.dre, rxc := q.rxc, err := q.err, rxb8 := q.rxb8, rxdata := q.rxdata }

theorem Port.periph_keeps_blockOwned (p : Port) (a : PeriphAct) :
    PeriphRegs.AgreeOnBlockOwned p.pr (p.periph a).pr := by
  cases a with
  | drive => rfl
  | load =>
    by_cases h : p.ref.hold = none ∨ p.ref.shift ≠ none
    · rw [Port.periph_load_of_disabled h]
      rfl
    · obtain ⟨hhold, hshift⟩ := not_or.mp h
      obtain ⟨f, hf⟩ := Option.ne_none_iff_exists'.mp hhold
      rw [Port.periph_load_of_enabled hf (not_not.mp hshift)]
      rfl
  | sent =>
    cases hshift : p.ref.shift with
    | none =>
      rw [Port.periph_sent_of_disabled hshift]
      rfl
    | some f =>
      rw [Port.periph_sent_of_enabled hshift]
      cases p.ref.hold <;> rfl
  | recv byte b8 err =>
    cases hrxen : p.pr.rxen
    · rw [Port.periph_recv_of_disabled hrxen]
      rfl
    · rw [Port.periph_recv_of_enabled hrxen]
      rfl

/-- PERIPH's step on a port that exists completes. -/
theorem step_periph_of_port {s : State} {k : Nat} {a : PeriphAct} {rest : List Move} {p : Port}
    (hs : s.sched = .periph k a :: rest) (hp : s.ports[k]? = some p) :
    step s = .next { s with sched := rest, cur := k, out := {}, ports := s.ports.set k (p.periph a) } := by
  rw [step_of_sched_cons hs]
  exact State.onPort_some _ hp

/-- Settles O50: every move keeps what the block owns, and DRIVE gives the other six fields any values. -/
theorem peripheralKeepsTheContract : Obligations.PeripheralKeepsTheContract := by
  refine ⟨fun s t k a rest p hs hp h => ?_, fun s k rest p txc dre rxc err rxb8 rxdata hp hs =>
    step_periph_of_port hs hp⟩
  cases (step_periph_of_port hs hp).symm.trans h
  obtain ⟨hrx, htx, hnine, htxing⟩ := p.periph_rings a
  exact ⟨rfl, rfl, rfl, p.periph a, rfl, hrx, htx, hnine, htxing, p.periph_keeps_blockOwned a⟩

end Sys2Proof.Machine

/-! SUPPORT. The family of `70_reset_and_hazards.md`: the commands before the first BEGIN (R232), a held END under
the reference peripheral, round by round of `drainRound` (R246), and a finished run (R247). -/

namespace Sys2Proof.Machine

/-! ### One round of SENT, LOAD and TXI on a port (`60_exceptions.md` R216, `44_handlers.md` R162) -/

/-- The frame that carries a pair held in `TX`. -/
def frameOf (x : Byte × Bool) : Frame := ⟨x.2, x.1⟩

/-- TXI's source is enabled, and TXI's line is 1 already or will be once LOAD empties `HOLD`. -/
def Port.Drains (p : Port) : Prop := p.pr.txie = true ∧ (p.pr.dre = true ∨ p.ref.hold ≠ none)

/-- The port after SENT and LOAD. -/
def Port.advance (p : Port) : Port := (p.periph .sent).periph .load

theorem Port.periph_sent_frames (p : Port) : (p.periph .sent).ref.frames = p.ref.frames := by
  cases hshift : p.ref.shift with
  | none => rw [Port.periph_sent_of_disabled hshift]
  | some f =>
    rw [Port.periph_sent_of_enabled hshift]
    simp [RefPeriph.frames, hshift]

/-- SENT empties `SHIFT`, and changes neither `HOLD` nor `DRE`. -/
theorem Port.periph_sent_ref (p : Port) : (p.periph .sent).ref.shift = none ∧
    (p.periph .sent).ref.hold = p.ref.hold ∧ (p.periph .sent).pr.dre = p.pr.dre := by
  cases hshift : p.ref.shift with
  | none =>
    rw [Port.periph_sent_of_disabled hshift]
    exact ⟨hshift, rfl, rfl⟩
  | some f =>
    rw [Port.periph_sent_of_enabled hshift]
    refine ⟨rfl, rfl, ?_⟩
    cases p.ref.hold <;> rfl

/-- With `SHIFT` empty LOAD leaves `HOLD` empty: it was, or its frame moves to `SHIFT` and `DRE` is set. -/
theorem Port.periph_load_of_shift_empty {p : Port} (hshift : p.ref.shift = none) :
    (p.periph .load).ref.hold = none ∧ (p.periph .load).ref.frames = p.ref.frames ∧
      (p.pr.dre = true ∨ p.ref.hold ≠ none → (p.periph .load).pr.dre = true) := by
  cases hhold : p.ref.hold with
  | none =>
    rw [Port.periph_load_of_disabled (.inl hhold)]
    exact ⟨hhold, rfl, fun h => h.resolve_right (not_not.mpr rfl)⟩
  | some f =>
    rw [Port.periph_load_of_enabled hhold hshift]
    exact ⟨rfl, by simp [RefPeriph.frames, hshift, hhold], fun _ => rfl⟩

@[simp] theorem Port.advance_tx (p : Port) : p.advance.tx = p.tx :=
  ((p.periph .sent).periph_rings .load).2.1.trans (p.periph_rings .sent).2.1

theorem Port.advance_frames (p : Port) : p.advance.ref.frames = p.ref.frames := by
  obtain ⟨hshift, -, -⟩ := p.periph_sent_ref
  obtain ⟨-, hframes, -⟩ := Port.periph_load_of_shift_empty hshift
  exact hframes.trans p.periph_sent_frames

/-- After SENT and LOAD the peripheral accepts a frame, and TXI's line is 1. -/
theorem Port.Drains.advance {p : Port} (h : p.Drains) : p.advance.pr.txie = true ∧
    p.advance.ref.hold = none ∧ p.advance.pr.txIrq = true := by
  obtain ⟨htxie, hready⟩ := h
  obtain ⟨hshift, hhold, hdre⟩ := p.periph_sent_ref
  obtain ⟨hhold', -, hdre'⟩ := Port.periph_load_of_shift_empty hshift
  rw [hhold, hdre] at hdre'
  have htxie' : p.advance.pr.txie = true := by
    rw [Port.advance, Port.periph_txie, Port.periph_txie, htxie]
  exact ⟨htxie', hhold', PeriphRegs.txIrq_of_enabled (hdre' hready) htxie'⟩

/-- TXI's body on a ring that holds `x` first, with the peripheral accepting: `x` leaves as the newest frame. -/
theorem Port.transmit_of_held_cons {c : Params} {p : Port} {x : Byte × Bool} {l : List (Byte × Bool)}
    (hwf : p.tx.wf c.nTx) (hl : p.tx.held c.nTx = x :: l) (htxie : p.pr.txie = true) (hhold : p.ref.hold = none) :
    (p.transmit c).Drains ∧ (p.transmit c).tx.wf c.nTx ∧ (p.transmit c).tx.held c.nTx = l ∧
      (p.transmit c).ref.frames = p.ref.frames ++ [frameOf x] := by
  have he : p.tx.empty = false := by
    rw [← Bool.not_eq_true, ← Ring.held_eq_nil_iff hwf, hl]
    exact List.cons_ne_nil x l
  obtain ⟨hfst, hrest, -⟩ := Ring.pop_of_held_cons hwf hl
  rw [Ring.pop_some he] at hfst
  cases hfst
  rw [← Port.transmit_tx] at hrest
  refine ⟨?_, Port.transmit_tx c p ▸ Ring.pop_keeps_wf hwf, hrest, ?_⟩
  · rw [Port.transmit_of_held he]
    exact ⟨htxie, .inr nofun⟩
  · rw [Port.transmit_of_held he]
    simp [RefPeriph.frames, hhold, frameOf, Ring.slot]

/-! ### A held END under SENT, LOAD and TXI (`70_reset_and_hazards.md` R246) -/

theorem State.run_add_of_next {s t : State} {m : Nat} (h : s.run m = .next t) (n : Nat) :
    s.run (m + n) = t.run n := by
  induction m generalizing s with
  | zero =>
    cases h
    rw [Nat.zero_add]
  | succ m ih =>
    cases hstep : step s with
    | next u =>
      rw [Nat.succ_add, State.run_succ_of_next hstep]
      rw [State.run_succ_of_next hstep] at h
      exact ih h
    | fault e => simp [State.run, hstep] at h
    | refused e => simp [State.run, hstep] at h

/-- A step of PERIPH, as `step_txi_of_line_high` says TXI's. -/
theorem step_periph_next {s : State} {k : Nat} {a : PeriphAct} {rest : List Move} {p : Port}
    (hs : s.sched = .periph k a :: rest) (hp : s.ports[k]? = some p) :
    ∃ t, step s = .next t ∧ t.cfg = s.cfg ∧ t.pend = s.pend ∧ t.sched = rest ∧
      t.ports[k]? = some (p.periph a) :=
  ⟨_, step_periph_of_port hs hp, rfl, rfl, rfl, by simp [(List.getElem?_eq_some_iff.mp hp).1]⟩

theorem run_drainRound {s : State} {k : Nat} {rest : List Move} {p : Port} (hs : s.sched = drainRound k ++ rest)
    (hp : s.ports[k]? = some p) (hirq : p.advance.pr.txIrq = true) :
    ∃ t, s.run 3 = .next t ∧ t.cfg = s.cfg ∧ t.pend = s.pend ∧ t.sched = rest ∧
      t.ports[k]? = some (p.advance.transmit s.cfg) := by
  obtain ⟨t1, hsent, hcfg1, hpend1, hs1, hp1⟩ := step_periph_next hs hp
  obtain ⟨t2, hload, hcfg2, hpend2, hs2, hp2⟩ := step_periph_next hs1 hp1
  obtain ⟨t3, htxi, hcfg3, hpend3, hs3, hp3⟩ := step_txi_of_line_high hs2 hp2 hirq
  have hcfg := hcfg2.trans hcfg1
  refine ⟨t3, ?_, hcfg3.trans hcfg, hpend3.trans (hpend2.trans hpend1), hs3, hcfg ▸ hp3⟩
  rw [State.run_succ_of_next hsent, State.run_succ_of_next hload, State.run_succ_of_next htxi, State.run]

/-- One round per byte held empties `TX` into the peripheral, in order. -/
theorem run_drainRounds {k : Nat} {rest : List Move} {l : List (Byte × Bool)} {s : State} {p : Port}
    (hs : s.sched = (List.replicate l.length (drainRound k)).flatten ++ rest) (hp : s.ports[k]? = some p)
    (hd : p.Drains) (hwf : p.tx.wf s.cfg.nTx) (hl : p.tx.held s.cfg.nTx = l) :
    ∃ t q, s.run (3 * l.length) = .next t ∧ t.pend = s.pend ∧ t.sched = rest ∧ t.ports[k]? = some q ∧
      q.tx.empty = true ∧ q.ref.frames = p.ref.frames ++ l.map frameOf := by
  induction l generalizing s p with
  | nil => exact ⟨s, p, rfl, rfl, hs, hp, (Ring.held_eq_nil_iff hwf).mp hl, (List.append_nil _).symm⟩
  | cons x l ih =>
    obtain ⟨htxie, hhold, hirq⟩ := hd.advance
    rw [← p.advance_tx] at hwf hl
    obtain ⟨hd', hwf', hl', hframes⟩ := Port.transmit_of_held_cons hwf hl htxie hhold
    rw [List.length_cons, List.replicate_succ, List.flatten_cons, List.append_assoc] at hs
    obtain ⟨t, hround, hcfg, hpend, ht, hpt⟩ := run_drainRound hs hp hirq
    rw [← hcfg] at hd' hwf' hl' hpt hframes
    obtain ⟨u, q, hrun, hupend, hu, hq, hempty, hall⟩ := ih ht hpt hd' hwf' hl'
    refine ⟨u, q, ?_, hupend.trans hpend, hu, hq, hempty, ?_⟩
    · rw [List.length_cons, Nat.mul_succ, Nat.add_comm, State.run_add_of_next hround, hrun]
    · rw [hall, hframes, Port.advance_frames, List.append_assoc, List.map_cons, List.singleton_append]

/-- MAIN's attempt at a held END whose `TX` is empty. -/
theorem step_main_of_held_end {s : State} {k : Nat} {p : Port} {ph : WPhase} {rest : List Move}
    (hs : s.sched = .main :: rest) (hpend : s.pend = some ⟨k, endWord, ph⟩) (hp : s.ports[k]? = some p)
    (hempty : p.tx.empty = true) :
    ∃ t, step s = .next t ∧ t.pend = none ∧ t.out.rsp = some 0x00000#18 ∧
      t.ports[k]? = some p.shutDown := by
  let s0 : State := { s with sched := rest, out := {} }
  let s1 : State := { s0 with cur := k }
  have hp1 : s1.port? = some p := hp
  have hattempt : stepMain s0 = exec .endPort s1 := stepMain_of_held (s := s0) hpend decodeCmd_endWord
  refine ⟨_, (step_of_sched_cons hs).trans (hattempt.trans (exec_end_of_drained hp1 hempty)), rfl, ?_,
    State.port?_respond hp1 _ _ _⟩
  rw [State.respond_out, rspWord_ok_zero]

/-- Settles O38: the rounds empty `TX` into the peripheral, and MAIN's attempt then finds END's guard true. -/
theorem heldEndCompletesAndLosesNothing : Obligations.HeldEndCompletesAndLosesNothing := by
  intro s k p w hinv hw hpend hp htxie hready hs
  cases hw
  obtain ⟨-, -, -, hports, -⟩ := hinv
  obtain ⟨-, hwf⟩ : p.wf s.cfg := PortsWf.get hports hp
  rw [← Ring.held_length] at hs ⊢
  obtain ⟨t, q, hrun, htpend, ht, hq, hempty, hframes⟩ := run_drainRounds hs hp ⟨htxie, hready⟩ hwf rfl
  obtain ⟨u, hmain, hupend, hrsp, hu⟩ := step_main_of_held_end ht (htpend.trans hpend) hq hempty
  refine ⟨u, q.shutDown, ?_, hupend, hrsp, hu, hempty, Ring.empty_true.mpr rfl, hframes⟩
  rw [State.run_add_of_next hrun, State.run_succ_of_next hmain, State.run]

/-! ### The commands before the first BEGIN (`70_reset_and_hazards.md` R232) -/

section
variable {s : State} {u : PowerOn} (hp : s.port? = some (Port.reset u)) (hpend : s.pend = none)
include hp hpend

/-- A response that leaves a reset port as it was, with the outputs as the only change. -/
theorem State.respond_reset (rsp : RspWord) :
    s.respond (Port.reset u) rsp = { s with out := { rsp := some rsp } } := State.respond_self hp hpend rsp []

/-- `RX` is empty, so READ and PEEKC have nothing to answer with. -/
theorem exec_read_peekc_of_reset {i : Instr} (hi : i = .read ∨ i = .peekc) :
    exec i s = .next { s with out := { rsp := some 0x1FFFF#18 } } := by
  have hempty : (Port.reset u).rx.empty = true := rfl
  rcases hi with rfl | rfl
  · rw [exec_read_of_port hp, Port.afterRead, Ring.pop_empty hempty, dataRsp_none]
    exact congrArg _ (State.respond_reset hp hpend _)
  · rw [exec_peekc_of_port hp, Ring.peek_empty hempty, dataRsp_none, hpend]

/-- Nothing is held and nothing is in transmission: the counts are 0 and both guards are true. -/
theorem exec_other_commands_of_reset {i : Instr} (hi : i = .available ∨ i = .overflow ∨ i = .flush ∨ i = .endPort) :
    exec i s = .next { s with out := { rsp := some 0x00000#18 } } := by
  have hocc : (Port.reset u).rx.occ s.cfg.nRx = 0 := Nat.mod_self _
  rw [← rspWord_ok_zero]
  rcases hi with rfl | rfl | rfl | rfl
  · rw [exec_available_of_port hp, hocc, hpend]
  · rw [exec_overflow_of_port hp, hpend]
    rfl
  · rw [exec_flush_of_ready hp (.inl rfl)]
    exact congrArg _ (State.respond_reset hp hpend _)
  · rw [exec_end_of_drained hp rfl]
    exact congrArg _ (State.respond_reset hp hpend _)

end

/-- Settles O44: on a reset port both rings are empty, `TXING` is 0 and the receive line is 0. -/
theorem commandsBeforeBegin : Obligations.CommandsBeforeBegin := by
  intro c u k _ hk s
  have hp : s.port? = some (Port.reset (u k)) := (State.resetWith_port c u k).trans (if_pos hk)
  have hirq : (Port.reset (u k)).pr.rxIrq = false := Bool.and_false _
  exact ⟨fun i => exec_read_peekc_of_reset hp rfl, fun i => exec_other_commands_of_reset hp rfl,
    exec_rxi_of_line_low hp hirq⟩

/-! ### A finished run (`70_reset_and_hazards.md` R247) -/

/-- Settles O55: MAIN has nothing to attempt or present, and a handler whose line is 0 idles. -/
theorem finishedRunIsQuiet : Obligations.FinishedRunIsQuiet := by
  intro s m rest hover hs hm
  obtain ⟨happ, hpend, hlines⟩ := hover
  suffices hidle : ∃ s0 : State, stepMove m { s with sched := rest, out := {} } = .next s0.noStep ∧
      s0.ports = s.ports ∧ s0.app = [] ∧ s0.pend = none by
    obtain ⟨s0, hmove, hports, happ0, hpend0⟩ := hidle
    exact ⟨_, (step_of_sched_cons hs).trans hmove, hports, happ0, hpend0, hports ▸ hlines⟩
  rcases hm with rfl | ⟨k, hm, hk⟩
  · exact ⟨_, stepMain_of_nothing hpend happ, rfl, happ, hpend⟩
  · let s0 : State := { s with sched := rest, out := {}, cur := k }
    have hp : s0.port? = some s.ports[k] := List.getElem?_eq_getElem hk
    obtain ⟨hrx, htx⟩ := hlines s.ports[k] (List.getElem_mem hk)
    refine ⟨s0, ?_, rfl, happ, hpend⟩
    rcases hm with rfl | rfl
    · exact exec_rxi_of_line_low hp hrx
    · exact exec_txi_of_line_low hp htx

end Sys2Proof.Machine

/-! SUPPORT. Decoding and encoding undo each other (`30_encoding.md` R71, R74, R77): the words with operands by
their fields, the words without as the single word of their row. -/

namespace Sys2Proof.Machine

/-! ### The encoded words with operands -/

/-- `RATE` keeps a rate of at most 32 bits whole (R72). -/
theorem decode_beginWord {rate : Nat} (h : rate < 2 ^ 32) (line : Byte) :
    decode (.cmd (beginWord rate line)) = .ok (.beginPort rate line) := by
  obtain ⟨hrow, hline, hrate⟩ := beginWord_fields rate line
  rw [decode_cmd_begin ((selects_eq_true_iff _ _ _).mp ((selects_begin _).mpr hrow)), hline, hrate,
    BitVec.toNat_ofNat, Nat.mod_eq_of_lt h]

theorem decode_writeWord (ninth : Bool) (byte : Byte) :
    decode (.cmd (writeWord ninth byte)) = .ok (.write ninth byte) :=
  decodeCmd_eq_write.mpr rfl

theorem decode_pushWord (rb : RingSel) (ninth : Bool) (byte : Byte) :
    decode (.ring rb (ropWord 0b001#3 ninth byte)) = .ok (.push rb ninth byte) := by
  obtain ⟨hrow, hninth, hbyte⟩ := ropWord_fields 0b001#3 ninth byte
  rw [decode_ring_push ((selects_eq_true_iff _ _ _).mp ((selects_push _).mpr hrow)), hninth, hbyte]

/-- Settles O4: the three operations with a word and operands by the fields of that word; any other word is fixed. -/
theorem decodeInvertsEncode : Obligations.DecodeInvertsEncode := by
  intro i hi
  cases i with
  | push rb ninth byte => exact decode_pushWord rb ninth byte
  | beginPort rate line => exact decode_beginWord (of_decide_eq_true hi) line
  | write ninth byte => exact decode_writeWord ninth byte
  | baudcalc clock rate prefer => rfl
  | pop rb | peek rb | avail rb | clear rb | discard rb => rfl
  | endPort | flush | read | peekc | available | overflow => rfl
  | rxi | txi => rfl

/-! ### The words that decode -/

/-- A ring request that decodes is the encoding of what it decodes to. -/
theorem encode_of_decode_ring {rb : RingSel} {w : RopWord} {i : Instr} (h : decode (.ring rb w) = .ok i) :
    encode i = .ring rb w := by
  simp only [decode, decodeRop, selects_wholeRop] at h
  split_ifs at h with hpush hpop hpeek havail hclear hdiscard <;> cases h
  · conv_rhs => rw [rop_fields w, (selects_push w).mp hpush]
    rfl
  all_goals
    subst w
    rfl

/-- BEGIN is the one command with a bound on an operand, and `RATE` has 32 bits. -/
theorem wf_of_decode_cmd {w : CmdWord} {i : Instr} (h : decode (.cmd w) = .ok i) : i.wf = true := by
  simp only [decode, decodeCmd] at h
  split_ifs at h <;> cases h
  · exact decide_eq_true (BitVec.isLt _)
  all_goals rfl

theorem wf_of_decode_ring {rb : RingSel} {w : RopWord} {i : Instr} (h : decode (.ring rb w) = .ok i) :
    i.wf = true := by
  simp only [decode, decodeRop] at h
  split_ifs at h <;> cases h <;> rfl

/-- Settles O5: the row that selected the word fixes every bit outside the operand fields. -/
theorem encodeInvertsDecode : Obligations.EncodeInvertsDecode :=
  ⟨fun _ _ h => ⟨encode_of_decode_cmd h, wf_of_decode_cmd h⟩,
    fun _ _ _ h => ⟨encode_of_decode_ring h, wf_of_decode_ring h⟩⟩

/-- Settles O6: fourteen closed words, which the decoder evaluates. -/
theorem listedWordsDecode : Obligations.ListedWordsDecode := by
  unfold Obligations.ListedWordsDecode
  decide

end Sys2Proof.Machine
